-- ==== Sys2Proof/Word.lean ====
section
/-! DEFINITION. The word types of the SimpleCPU core: the 8-bit datapath and the 16-bit memory word (00_scope.md R5, R9). -/

namespace Sys2Proof

/-- An 8-bit value `u8`: ACC, the ALU operands, the instruction's operand field (R5, R9). -/
abbrev Byte := BitVec 8

/-- An 8-bit word address into the 256-word memory: PC and every effective address (R5, R40). -/
abbrev Addr := BitVec 8

/-- A 16-bit value `u16`: a memory word and IR (R5, R9). -/
abbrev Word := BitVec 16

end Sys2Proof
end

