-- ==== Sys2Proof/Machine/State.lean ====
section
/-! DEFINITION. The machine state (10_state.md R20), the reasons a step can stop, and the state after reset (R33). -/

namespace Sys2Proof.Machine

/-- The stage register STAGE, a three-valued enumeration (10_state.md R26; D19). -/
inductive Stage where
  /-- fetch -/
  | stage1
  | stage2
  | stage3
deriving DecidableEq, Repr

/-- The contents of the 256-word array (10_state.md R31; 20_memory.md R40), as cells in one canonical form (`Memory.wf`):
word `a` is the cell pair `2a` (bits [7:0]) and `2a+1` (bits [15:8]), a representation no access can see (log entry 5). -/
abbrev Memory := List Host.Cell

/-- The machine state: the five components of 10_state.md R20, the clear input that the next step samples (70_reset_and_hazards.md R190)
and the model's counter that indexes free values (log entry 4). -/
structure State where
  /-- instruction register IR (R22) -/
  ir : Word
  /-- accumulator ACC (R23) -/
  acc : Byte
  /-- program counter PC (R24) -/
  pc : Addr
  /-- stage register STAGE (R26) -/
  stage : Stage
  /-- memory array M (R31) -/
  mem : Memory
  /-- the clear input `clr` as the next step samples it (R190); an input held in the state, not a register of the core (log entry 2) -/
  clr : Bool
  /-- steps taken: the index of the free values of the next step; the model's own field (log entry 4) -/
  tick : Nat
deriving DecidableEq, Repr

/-- The hardware has no run-time fault of any kind: "A model's step for this hardware has no fault outcome" (60_exceptions.md R170). -/
inductive Fault : Type
deriving DecidableEq, Repr

/-- Why a step or a construction is refused. No step of the spec's machine (`Config.undefOp = execute`) is refused. -/
inductive Refusal where
  /-- raised by an arm of `exec` whose instruction has no meaning yet; none is left. Safe: the model stops. -/
  | notModelled (mnemonic : String)
  /-- raised by `clockStep` in the cautious variant `P_UNDEF_OP = refuse` alone, at the fetch of a word of opcode 11 to 15
  (93_implementation_defined.md entry 1). Safe: the model stops where the spec's machine goes on. -/
  | undefinedOpcode (op : BitVec 4)
  /-- raised by `Driver.boot` for an image of other than 256 words (20_memory.md R42; 60_exceptions.md R184). Safe: the spec's own refusal. -/
  | memorySize (words : Nat)
deriving DecidableEq, Repr

/-- A state right after a clear step (10_state.md R33): STAGE1, PC 0x00, and any ACC, any IR and any memory contents. -/
def State.afterClear (acc : Byte) (ir : Word) (mem : Memory) : State :=
  { ir := ir, acc := acc, pc := 0x00, stage := .stage1, mem := mem, clr := false, tick := 0 }

/-- The machine right after reset (10_state.md R33): STAGE1, PC 0x00. DESIGN CHOICE: the memory is that of an image that lists nothing, so
each word reads 0x0000 (20_memory.md R53; log entry 6); the spec leaves ACC and IR open here, and this state takes 0 for both (log entry 1). -/
def State.reset : State := State.afterClear 0x00 0x0000 []

end Sys2Proof.Machine
end

