-- ==== Sys2Proof/Machine/Flags.lean ====
section
/-! DEFINITION. The one flag: the zero flag Z, derived from ACC and not stored (10_state.md R27, R28). -/

namespace Sys2Proof.Machine

/-- `Z = (ACC == 0)`, recomputed every cycle from ACC (10_state.md R27). -/
def zeroFlag (acc : Byte) : Bool := acc == 0x00

end Sys2Proof.Machine
end

