-- ==== Sys2Proof/Config.lean ====
section
/-! DEFINITION. What the spec leaves open: the free values it calls draws (00_scope.md R10; 93_implementation_defined.md), each an
opaque function of the model's step counter, and the one model option `P_UNDEF_OP` (R6). -/

namespace Sys2Proof

/-- `P_STORE_HI`: bits [15:8] of the word a store writes, drawn in each store step (R46; D9; log entry 3). -/
opaque Config.storeHi : Nat → Byte

/-- `P_DOUT_HI`: bits [15:8] of the `data_out` the host observes, drawn per observation (R125; D10; log entry 3). -/
opaque Config.doutHi : Nat → Byte

/-- `P_ACC_CLR`: ACC after a clear step (R33, R191; D4; log entry 3). -/
opaque Config.accClr : Nat → Byte

/-- `P_IR_CLR`: IR after a clear step (R33, R191; D5; log entry 3). -/
opaque Config.irClr : Nat → Word

/-- `P_CLR_WR`: whether a store pending in a cleared step commits (R191; D6; log entry 3). -/
opaque Config.clrWr : Nat → Bool

/-- The two values of the model option `P_UNDEF_OP` (R6; 93_implementation_defined.md entry 1). -/
inductive UndefOp where
  /-- opcodes 11 to 15 run as the no-op of R158: the spec's value. -/
  | execute
  /-- the cautious variant: a word of opcode 11 to 15 is not accepted at fetch. -/
  | refuse
deriving DecidableEq, Repr

/-- The spec's value of `P_UNDEF_OP` (R6, R66; D20). -/
def Config.undefOp : UndefOp := .execute

end Sys2Proof
end

