-- ==== Sys2Proof/Syntax.lean ====
section
/-! DEFINITION. The instructions, one constructor per row of spec/opcode_table.json (30_encoding.md R64), and the statements of the
spec's assembler language (R70 to R72). -/

namespace Sys2Proof

/-- An instruction as the decoder gives it: the opcode is the constructor, the argument is the 8-bit operand field `imm8`
(30_encoding.md R61, R62, R69). Bits [11:8] of the word are not part of it (R63). -/
inductive Instr where
  /-- opcode 0, `move #imm8` (R130) -/
  | move (imm : Byte)
  /-- opcode 1, `add #imm8` (R131) -/
  | add (imm : Byte)
  /-- opcode 2, `sub #imm8` (R132) -/
  | sub (imm : Byte)
  /-- opcode 3, `and #imm8` (R133) -/
  | and (imm : Byte)
  /-- opcode 4, `load ea` (R140) -/
  | load (ea : Addr)
  /-- opcode 5, `store ea` (R141) -/
  | store (ea : Addr)
  /-- opcode 6, `addm ea` (R142) -/
  | addm (ea : Addr)
  /-- opcode 7, `subm ea` (R143) -/
  | subm (ea : Addr)
  /-- opcode 8, `jumpu t` (R150) -/
  | jumpu (t : Addr)
  /-- opcode 9, `jumpz t` (R151) -/
  | jumpz (t : Addr)
  /-- opcode 10, `jumpnz t` (R152) -/
  | jumpnz (t : Addr)
  /-- opcode 11 (R160) -/
  | undef11 (unused : Byte)
  /-- opcode 12 (R161) -/
  | undef12 (unused : Byte)
  /-- opcode 13 (R162) -/
  | undef13 (unused : Byte)
  /-- opcode 14 (R163) -/
  | undef14 (unused : Byte)
  /-- opcode 15, the sentinel 0xFFFF among its words (R164) -/
  | undef15 (unused : Byte)
deriving DecidableEq, Repr

/-- The mnemonics of the assembler language (30_encoding.md R64, R70): opcodes 11 to 15 have none. -/
inductive Mnemonic where
  | move | add | sub | and
  | load | store | addm | subm
  | jumpu | jumpz | jumpnz
deriving DecidableEq, Repr

/-- A label's characters (30_encoding.md R71). -/
abbrev Label := List Char

/-- An operand as written: a number, or a label that stands for its statement's word address (R71). -/
inductive Operand where
  | num (n : Nat)
  | label (l : Label)
deriving DecidableEq, Repr

/-- A statement of the assembler language (30_encoding.md R70, R72); `halt` is the statement `word 0xFFFF` (R72). -/
inductive Stmt where
  | instr (m : Mnemonic) (o : Operand)
  | word (w : Nat)
deriving DecidableEq, Repr

/-- One line that holds a statement: the address the listing may give, the label it may define, the statement (R70, R71). -/
structure Item where
  addr  : Option Nat
  label : Option Label
  stmt  : Stmt
deriving DecidableEq, Repr

end Sys2Proof
end

