-- ==== Sys2Proof/WellFormed.lean ====
section
/-! DEFINITION. The checks the spec puts on what is handed to the core from outside: a statement's operands (30_encoding.md R71, R72),
a loader listing (R74) and a memory image (20_memory.md R42).

Every term of `Instr` is well formed: its operand's type is exactly the 8-bit field, and every value of the field is a valid
instruction (30_encoding.md R62, R67). -/

namespace Sys2Proof

/-- The immediate forms, whose operand is written with `#` and is a number (30_encoding.md R70). -/
def Mnemonic.isImmediate : Mnemonic → Bool
  | .move | .add | .sub | .and => true
  | .load | .store | .addm | .subm | .jumpu | .jumpz | .jumpnz => false

/-- "an immediate or address must lie in 0–255" (30_encoding.md R71). -/
def WellFormed.byteValue (n : Nat) : Bool := n < 256

/-- `.word w` takes a 16-bit value, 0 to 0xFFFF (30_encoding.md R72). -/
def WellFormed.wordValue (n : Nat) : Bool := n < 65536

/-- An operand's check: a number in 0 to 255, or, in an address form, a label the program defines (30_encoding.md R70, R71). -/
def WellFormed.operand (labels : List Label) (m : Mnemonic) : Operand → Bool
  | .num n => WellFormed.byteValue n
  | .label l => !m.isImmediate && labels.contains l

/-- A statement's check (30_encoding.md R70 to R72). -/
def WellFormed.stmt (labels : List Label) : Stmt → Bool
  | .instr m o => WellFormed.operand labels m o
  | .word w => WellFormed.wordValue w

/-- A listing's check: every address in 0 to 255, none listed twice (30_encoding.md R74; D26). -/
def WellFormed.listing : List (Nat × Word) → Bool
  | [] => true
  | e :: rest => WellFormed.byteValue e.1 && !(rest.any fun f => f.1 == e.1) && WellFormed.listing rest

/-- An image's check: exactly 256 words (20_memory.md R42; D13). -/
def WellFormed.image (ws : List Word) : Bool := ws.length == 256

end Sys2Proof
end

