-- ==== Sys2Proof/Decode.lean ====
section
/-! DEFINITION. The one instruction format (30_encoding.md R60 to R63), the total decoder of 16-bit words and the encoder (R69). -/

namespace Sys2Proof

/-- Bits [15:12], the opcode field (30_encoding.md R61). -/
def opcodeOf (w : Word) : BitVec 4 := w.extractLsb' 12 4

/-- Bits [11:8], not used by the core (30_encoding.md R61, R63). -/
def unusedOf (w : Word) : BitVec 4 := w.extractLsb' 8 4

/-- Bits [7:0], the operand field `imm8` (30_encoding.md R61, R62). -/
def operandOf (w : Word) : Byte := w.extractLsb' 0 8

/-- The instruction an opcode selects (the opcode map, 30_encoding.md R64, R65). -/
def ofOpcode (op : BitVec 4) (imm : Byte) : Instr :=
  match op.toNat with
  | 0 => .move imm
  | 1 => .add imm
  | 2 => .sub imm
  | 3 => .and imm
  | 4 => .load imm
  | 5 => .store imm
  | 6 => .addm imm
  | 7 => .subm imm
  | 8 => .jumpu imm
  | 9 => .jumpz imm
  | 10 => .jumpnz imm
  | 11 => .undef11 imm
  | 12 => .undef12 imm
  | 13 => .undef13 imm
  | 14 => .undef14 imm
  | _ => .undef15 imm   -- 15, the one value left of a 4-bit field

/-- The decoder, total on 16-bit words: `decode(w) = (op = w[15:12], imm8 = w[7:0])` (30_encoding.md R69). No word is rejected:
opcodes 11 to 15 decode to their rows (R66). -/
def decode (w : Word) : Instr := ofOpcode (opcodeOf w) (operandOf w)

/-- The opcode of an instruction (30_encoding.md R64). -/
def Instr.opcode : Instr → BitVec 4
  | .move _ => 0
  | .add _ => 1
  | .sub _ => 2
  | .and _ => 3
  | .load _ => 4
  | .store _ => 5
  | .addm _ => 6
  | .subm _ => 7
  | .jumpu _ => 8
  | .jumpz _ => 9
  | .jumpnz _ => 10
  | .undef11 _ => 11
  | .undef12 _ => 12
  | .undef13 _ => 13
  | .undef14 _ => 14
  | .undef15 _ => 15

/-- The operand field of an instruction (30_encoding.md R62). -/
def Instr.operand : Instr → Byte
  | .move b => b
  | .add b => b
  | .sub b => b
  | .and b => b
  | .load b => b
  | .store b => b
  | .addm b => b
  | .subm b => b
  | .jumpu b => b
  | .jumpz b => b
  | .jumpnz b => b
  | .undef11 b => b
  | .undef12 b => b
  | .undef13 b => b
  | .undef14 b => b
  | .undef15 b => b

/-- `encode(op, imm8) = zext_16(op) << 12 | zext_16(imm8)` (30_encoding.md R69). -/
def encodeFields (op : BitVec 4) (imm : Byte) : Word := (op.setWidth 16 <<< 12) ||| imm.setWidth 16

/-- The word of an instruction, bits [11:8] zero (30_encoding.md R69; D12). -/
def encode (i : Instr) : Word := encodeFields i.opcode i.operand

/-- What the decoder reads from an instruction whose bits, numbered as spec/opcode_table.json numbers them, are `w`: one 16-bit
word (30_encoding.md R60), the bits above `nbits` zero. -/
def decodeTableWord (nbits w : Nat) : Option Instr :=
  if nbits ≤ 16 ∧ w < 2 ^ nbits then some (decode (BitVec.ofNat 16 w)) else none

end Sys2Proof
end

