-- ==== Sys2Proof/Machine/Ops.lean ====
section
/-! DEFINITION. The named operations over memory and registers: the memory collaborator's read and write (20_memory.md R41), the register
primitive and the PC counter (42_register_file.md R115, R118). The hardware takes no exception and returns from none
(60_exceptions.md R170, R174, R175), so no such operation exists. -/

namespace Sys2Proof.Machine

/-! ### Memory -/

/-- What an unlisted cell reads as: "unlisted addresses default to 0" (20_memory.md R53; 30_encoding.md R74). -/
def Memory.unlisted : Byte := 0x00

/-- One past the last cell: 256 words of two cells each (20_memory.md R40). -/
def Memory.cells : Nat := 512

/-- The cells are strictly rising from `lo`, inside the array, and none is listed with the unlisted value. -/
def Memory.canonicalFrom (lo : Nat) : Memory → Bool
  | [] => true
  | (k, v) :: rest =>
    decide (lo ≤ k) && decide (k < Memory.cells) && (v != Memory.unlisted) && Memory.canonicalFrom (k + 1) rest

/-- The one canonical form of a memory. -/
def Memory.wf (m : Memory) : Bool := Memory.canonicalFrom 0 m

/-- The byte a cell holds; the cells rise, so the search ends at the first one past it. -/
def Memory.readByte : Memory → Nat → Byte
  | [], _ => Memory.unlisted
  | (k, v) :: rest, a =>
    if a < k then Memory.unlisted else if a = k then v else Memory.readByte rest a

/-- A cell put in front of a memory, unless it holds the unlisted value. -/
def Memory.consCell (a : Nat) (v : Byte) (m : Memory) : Memory := if v = Memory.unlisted then m else (a, v) :: m

/-- A memory with one cell written, in canonical form again. -/
def Memory.writeByte : Memory → Nat → Byte → Memory
  | [], a, v => Memory.consCell a v []
  | (k, u) :: rest, a, v =>
    if a < k then Memory.consCell a v ((k, u) :: rest)
    else if a = k then Memory.consCell a v rest
    else (k, u) :: Memory.writeByte rest a v

/-- The cell of bits [7:0] of the word at `a` (log entry 5). -/
def Memory.loCell (a : Addr) : Nat := 2 * a.toNat

/-- The cell of bits [15:8] of the word at `a` (log entry 5). -/
def Memory.hiCell (a : Addr) : Nat := 2 * a.toNat + 1

/-- Bits [7:0] of a word (20_memory.md R45, R50; D8). -/
def loByte (w : Word) : Byte := w.extractLsb' 0 8

/-- Bits [15:8] of a word (20_memory.md R46, R50). -/
def hiByte (w : Word) : Byte := w.extractLsb' 8 8

/-- `MemRead(a, 1)`: the word at `a`, with no side effect (20_memory.md R41, R49). -/
def Memory.readWord (m : Memory) (a : Addr) : Word :=
  m.readByte (Memory.hiCell a) ++ m.readByte (Memory.loCell a)

/-- The memory-read byte, bits [7:0] of `MemRead(a, 1)` (20_memory.md R45; D8). -/
def Memory.readLow (m : Memory) (a : Addr) : Byte := m.readByte (Memory.loCell a)

/-- `MemWrite(a, 1, hi ++ lo)`: the memory with the word at `a` written and no other changed (20_memory.md R41, R49). -/
def Memory.writeBytes (m : Memory) (a : Addr) (hi lo : Byte) : Memory :=
  (m.writeByte (Memory.loCell a) lo).writeByte (Memory.hiCell a) hi

/-- `MemWrite(a, 1, w)` (20_memory.md R41, R49). -/
def Memory.writeWord (m : Memory) (a : Addr) (w : Word) : Memory := m.writeBytes a (hiByte w) (loByte w)

/-- The memory whose words from address `a` on are `ws` and whose other words are 0x0000 (10_state.md R31; 30_encoding.md R74). -/
def Memory.ofWordsFrom (a : Nat) : List Word → Memory
  | [] => []
  | w :: ws =>
    Memory.consCell (2 * a) (loByte w) (Memory.consCell (2 * a + 1) (hiByte w) (Memory.ofWordsFrom (a + 1) ws))

/-! ### Registers -/

/-- The generic register at an edge: `R' = CLR ? 0 : EN ? D : R`, clear over enable (42_register_file.md R115, R121; D7). -/
def registerNext {n : Nat} (clr en : Bool) (d r : BitVec n) : BitVec n :=
  if clr then 0 else if en then d else r

/-- The PC counter's data input: the loaded value if LD, else the increment modulo 256 (42_register_file.md R118, R119). -/
def pcData (ld : Bool) (target pc : Addr) : Addr := if ld then target else pc + 1

/-- The PC counter at an edge: the register primitive over `pcData`, both paths gated by the one enable (42_register_file.md R115, R118). -/
def pcNext (clr en ld : Bool) (target pc : Addr) : Addr := registerNext clr en (pcData ld target pc) pc

/-- The word on the data-out bus of a store step, `(draw P_STORE_HI) ++ ACC` (20_memory.md R46; D9). -/
def dataOut (s : State) : Word := Config.storeHi s.tick ++ s.acc

end Sys2Proof.Machine
end

