-- ==== Sys2Proof/Machine/Operands.lean ====
section
/-! DEFINITION. The two multiplexers in front of the memory and the ALU (20_memory.md R43; 43_datapath.md R122), and the ALU (40_alu.md). -/

namespace Sys2Proof.Machine

/-- The address multiplexer, `ADDR = ADDR_SEL ? IR[7:0] : PC` (20_memory.md R43). -/
def addressMux (addrSel : Bool) (imm : Byte) (pc : Addr) : Addr := if addrSel then imm else pc

/-- The ALU's B operand, `B = DATA_SEL ? (memory-read byte) : IR.immediate` (43_datapath.md R122; 20_memory.md R45). -/
def operandB (dataSel : Bool) (readByte imm : Byte) : Byte := if dataSel then readByte else imm

/-- The two's-complement adder, `addsub = CTL0 ? (A + (~B + 1)) : (A + B)` modulo 256 (40_alu.md R81). -/
def addsub (a b : Byte) (ctl0 : Bool) : Byte := if ctl0 then a + (~~~b + 1) else a + b

/-- The ALU: CTL[2:1] selects the adder, AND, or B unchanged (40_alu.md R82). -/
def alu (a b : Byte) (ctl : BitVec 3) : Byte :=
  match (ctl.extractLsb' 1 2).toFin with
  | 0 => addsub a b (ctl.getLsbD 0)
  | 1 => a &&& b
  | 2 => b
  | 3 => b

end Sys2Proof.Machine
end

