-- ==== Sys2Proof/Machine/Sequencer.lean ====
section
/-! DEFINITION. The sequencer: the stage machine (41_sequencer.md R90), the one-hot decode (R92) and the control lines as the spec's
normative formulas (R94 to R105). -/

namespace Sys2Proof.Machine

/-- The stage after an edge with no clear (41_sequencer.md R90). -/
def Stage.next : Stage → Stage
  | .stage1 => .stage2
  | .stage2 => .stage3
  | .stage3 => .stage1

/-- The control lines of a step (41_sequencer.md section 3). -/
structure Lines where
  irEn    : Bool
  romEn   : Bool
  ramEn   : Bool
  addrSel : Bool
  dataSel : Bool
  ramWr   : Bool
  pcLd    : Bool
  pcEn    : Bool
  accEn   : Bool
  accCtl  : BitVec 3
deriving DecidableEq, Repr

/-- The one-hot decode line `Y[k] = (IR[15:12] == k)` (41_sequencer.md R92; 30_encoding.md R65). -/
def decodeLine (op k : BitVec 4) : Bool := op == k

/-- `SUB = Y[6] | Y[7]`, true for addm and subm (41_sequencer.md R93). -/
def subTerm (op : BitVec 4) : Bool := decodeLine op 6 || decodeLine op 7

/-- `MEMOP = Y4 | Y5 | SUB` (41_sequencer.md R93). -/
def memOp (op : BitVec 4) : Bool := decodeLine op 4 || decodeLine op 5 || subTerm op

/-- `PC_LD = Y8 | (Y9 & Z) | (Y10 & ~Z)`, no stage term (41_sequencer.md R100). -/
def pcLoad (op : BitVec 4) (z : Bool) : Bool :=
  decodeLine op 8 || (decodeLine op 9 && z) || (decodeLine op 10 && !z)

/-- The total function `lines(STAGE, IR[15:12], Z)` (41_sequencer.md R91 to R106). -/
def lines (stage : Stage) (op : BitVec 4) (z : Bool) : Lines :=
  let y := decodeLine op
  let q1 := stage == .stage1
  let q2 := stage == .stage2
  let q3 := stage == .stage3
  let pcLd := pcLoad op z
  { irEn    := q1                                                        -- R94
    romEn   := q1                                                        -- R95
    ramEn   := (q2 || q3) && memOp op                                    -- R96
    addrSel := memOp op && (q2 || q3)                                    -- R97
    dataSel := y 4 || subTerm op                                         -- R98
    ramWr   := q3 && y 5                                                 -- R99
    pcLd    := pcLd                                                      -- R100
    pcEn    := (pcLd && q3) || (!pcLd && q2)                             -- R101
    accEn   := (y 0 || y 1 || y 2 || y 3 || y 4 || subTerm op) && q3     -- R102
    accCtl  := BitVec.ofBool (y 0 || y 4)                                -- R103
                 ++ BitVec.ofBool (y 3)                                  -- R104
                 ++ BitVec.ofBool (y 2 || y 7) }                         -- R105

end Sys2Proof.Machine
end

