-- ==== Sys2Proof/Machine/Datapath.lean ====
section
/-! DEFINITION. The datapath of one step (43_datapath.md R122, R123): the combinational values computed from the state before the edge, the
edge with no clear, and the clear step (70_reset_and_hazards.md R191). -/

namespace Sys2Proof.Machine

/-- The control lines of the step from `s` when the sequencer's opcode input is `op` (43_datapath.md R122, phases 1 and 2). -/
def linesOf (op : BitVec 4) (s : State) : Lines := lines s.stage op (zeroFlag s.acc)

/-- The memory address of the step (20_memory.md R43; 43_datapath.md R122, phase 4). -/
def addressOf (op : BitVec 4) (imm : Byte) (s : State) : Addr := addressMux (linesOf op s).addrSel imm s.pc

/-- The read-data bus of the step, read unconditionally (20_memory.md R44; D11; 43_datapath.md R122, phase 4). -/
def readData (op : BitVec 4) (imm : Byte) (s : State) : Word := s.mem.readWord (addressOf op imm s)

/-- The memory-read byte of the step, bits [7:0] of the read data (20_memory.md R45; D8). -/
def readDataByte (op : BitVec 4) (imm : Byte) (s : State) : Byte := s.mem.readLow (addressOf op imm s)

/-- The ALU output of the step (43_datapath.md R122, phase 3). -/
def aluOut (op : BitVec 4) (imm : Byte) (s : State) : Byte :=
  alu s.acc (operandB (linesOf op s).dataSel (readDataByte op imm s) imm) (linesOf op s).accCtl

/-- Memory after the edge: where the write commits, the word at the step's address is `(draw P_STORE_HI) ++ ACC`, the data-out word
`dataOut` (20_memory.md R46). -/
def storeCommit (commits : Bool) (op : BitVec 4) (imm : Byte) (s : State) : Memory :=
  if commits then s.mem.writeBytes (addressOf op imm s) (Config.storeHi s.tick) s.acc else s.mem

/-- The edge with no clear, for the opcode and operand fields given (43_datapath.md R122, phase 5): every value is computed from the
state before the edge, every register and the memory commit at once (R123). -/
def edge (op : BitVec 4) (imm : Byte) (s : State) : State :=
  let l := linesOf op s
  { s with
    ir    := registerNext false l.irEn (readData op imm s) s.ir            -- 42_register_file.md R116
    acc   := registerNext false l.accEn (aluOut op imm s) s.acc            -- R117
    pc    := pcNext false l.pcEn l.pcLd imm s.pc                           -- R118
    mem   := storeCommit l.ramWr op imm s                                  -- 20_memory.md R46
    stage := s.stage.next                                                  -- 41_sequencer.md R90
    tick  := s.tick + 1 }

/-- The clear step (70_reset_and_hazards.md R191): the combinational phase is that of the step, the clear wins at the edge (R121); ACC and
IR are draws, and a pending write commits iff the draw `P_CLR_WR` says so. The clear input holds for this step only (R190). -/
def clearEdge (s : State) : State :=
  let op := opcodeOf s.ir
  let imm := operandOf s.ir
  let l := linesOf op s
  { s with
    ir    := Config.irClr s.tick
    acc   := Config.accClr s.tick
    pc    := pcNext true l.pcEn l.pcLd imm s.pc
    mem   := storeCommit (l.ramWr && Config.clrWr s.tick) op imm s
    stage := .stage1
    clr   := false
    tick  := s.tick + 1 }

end Sys2Proof.Machine
end

