-- ==== Sys2Proof/Machine/Immediate.lean ====
section
/-! DEFINITION. The immediate ALU instructions move, add, sub, and (44_instr_immediate.md): each is the datapath's step for its opcode, in the
stage the state is in (R128). -/

namespace Sys2Proof.Machine

/-- `move #imm8`, opcode 0: ACC <- imm8 at the STAGE3 edge, PC <- PC + 1 at the STAGE2 edge (R128, R130). -/
def execMove (imm : Byte) (s : State) : Host.Outcome State Fault Refusal := .next (edge 0 imm s)

/-- `add #imm8`, opcode 1: ACC <- ACC + imm8 modulo 256 at the STAGE3 edge (R128, R131). -/
def execAdd (imm : Byte) (s : State) : Host.Outcome State Fault Refusal := .next (edge 1 imm s)

/-- `sub #imm8`, opcode 2: ACC <- ACC - imm8 modulo 256 at the STAGE3 edge (R128, R132). -/
def execSub (imm : Byte) (s : State) : Host.Outcome State Fault Refusal := .next (edge 2 imm s)

/-- `and #imm8`, opcode 3: ACC <- ACC & imm8 at the STAGE3 edge (R128, R133). -/
def execAnd (imm : Byte) (s : State) : Host.Outcome State Fault Refusal := .next (edge 3 imm s)

end Sys2Proof.Machine
end

