-- ==== Sys2Proof/Machine/Jumps.lean ====
section
/-! DEFINITION. The jumps jumpu, jumpz, jumpnz (46_instr_jumps.md): a taken jump loads PC at the STAGE3 edge, a jump not taken increments it at
the STAGE2 edge (R148). -/

namespace Sys2Proof.Machine

/-- `jumpu t`, opcode 8: PC <- t always (R148, R150). -/
def execJumpu (t : Addr) (s : State) : Host.Outcome State Fault Refusal := .next (edge 8 t s)

/-- `jumpz t`, opcode 9: PC <- t if Z, else PC <- PC + 1 (R148, R151). -/
def execJumpz (t : Addr) (s : State) : Host.Outcome State Fault Refusal := .next (edge 9 t s)

/-- `jumpnz t`, opcode 10: PC <- t if not Z, else PC <- PC + 1 (R148, R152). -/
def execJumpnz (t : Addr) (s : State) : Host.Outcome State Fault Refusal := .next (edge 10 t s)

end Sys2Proof.Machine
end

