-- ==== Sys2Proof/Machine/MemoryInstr.lean ====
section
/-! DEFINITION. The memory instructions load, store, addm, subm (45_instr_memory.md): absolute direct addressing, `ea = IR[7:0]` (R138). -/

namespace Sys2Proof.Machine

/-- `load ea`, opcode 4: ACC <- M[ea][7:0] at the STAGE3 edge (R138, R140). -/
def execLoad (ea : Addr) (s : State) : Host.Outcome State Fault Refusal := .next (edge 4 ea s)

/-- `store ea`, opcode 5: M[ea] <- P_STORE_HI ++ ACC at the STAGE3 edge; ACC and Z unchanged (R138, R141). -/
def execStore (ea : Addr) (s : State) : Host.Outcome State Fault Refusal := .next (edge 5 ea s)

/-- `addm ea`, opcode 6: ACC <- ACC + M[ea][7:0] modulo 256 at the STAGE3 edge (R138, R142). -/
def execAddm (ea : Addr) (s : State) : Host.Outcome State Fault Refusal := .next (edge 6 ea s)

/-- `subm ea`, opcode 7: ACC <- ACC - M[ea][7:0] modulo 256 at the STAGE3 edge (R138, R143). -/
def execSubm (ea : Addr) (s : State) : Host.Outcome State Fault Refusal := .next (edge 7 ea s)

end Sys2Proof.Machine
end

