-- ==== Sys2Proof/Machine/Undefined.lean ====
section
/-! DEFINITION. The undefined opcodes 11 to 15 (47_instr_undefined.md R158, R159; 90_conflicts.md C1): no control formula reads their decode
lines, so each is a no-op that advances PC in STAGE2. Nothing of the operand field is used. -/

namespace Sys2Proof.Machine

/-- Opcode 11: PC <- PC + 1 at the STAGE2 edge and no other effect (R158, R160). -/
def execUndef11 (unused : Byte) (s : State) : Host.Outcome State Fault Refusal := .next (edge 11 unused s)

/-- Opcode 12: PC <- PC + 1 at the STAGE2 edge and no other effect (R158, R161). -/
def execUndef12 (unused : Byte) (s : State) : Host.Outcome State Fault Refusal := .next (edge 12 unused s)

/-- Opcode 13: PC <- PC + 1 at the STAGE2 edge and no other effect (R158, R162). -/
def execUndef13 (unused : Byte) (s : State) : Host.Outcome State Fault Refusal := .next (edge 13 unused s)

/-- Opcode 14: PC <- PC + 1 at the STAGE2 edge and no other effect (R158, R163). -/
def execUndef14 (unused : Byte) (s : State) : Host.Outcome State Fault Refusal := .next (edge 14 unused s)

/-- Opcode 15: PC <- PC + 1 at the STAGE2 edge and no other effect (R158, R164). -/
def execUndef15 (unused : Byte) (s : State) : Host.Outcome State Fault Refusal := .next (edge 15 unused s)

end Sys2Proof.Machine
end

