-- ==== Sys2Proof/Machine/Dispatch.lean ====
section
/-! DEFINITION. The dispatch: one arm per instruction, each one direct call of its meaning. -/

namespace Sys2Proof.Machine

/-- One step (one clock edge, no clear) of an instruction in the stage the state is in (43_datapath.md R122). -/
def exec (i : Instr) (s : State) : Host.Outcome State Fault Refusal :=
  match i with
  | .move imm => Sys2Proof.Machine.execMove imm s
  | .add imm => Sys2Proof.Machine.execAdd imm s
  | .sub imm => Sys2Proof.Machine.execSub imm s
  | .and imm => Sys2Proof.Machine.execAnd imm s
  | .load ea => Sys2Proof.Machine.execLoad ea s
  | .store ea => Sys2Proof.Machine.execStore ea s
  | .addm ea => Sys2Proof.Machine.execAddm ea s
  | .subm ea => Sys2Proof.Machine.execSubm ea s
  | .jumpu t => Sys2Proof.Machine.execJumpu t s
  | .jumpz t => Sys2Proof.Machine.execJumpz t s
  | .jumpnz t => Sys2Proof.Machine.execJumpnz t s
  | .undef11 unused => Sys2Proof.Machine.execUndef11 unused s
  | .undef12 unused => Sys2Proof.Machine.execUndef12 unused s
  | .undef13 unused => Sys2Proof.Machine.execUndef13 unused s
  | .undef14 unused => Sys2Proof.Machine.execUndef14 unused s
  | .undef15 unused => Sys2Proof.Machine.execUndef15 unused s

end Sys2Proof.Machine
end

