-- ==== Sys2Proof/Machine/Clock.lean ====
section
/-! DEFINITION. One clock step of the whole core (43_datapath.md R122): the clear step where the clear input is high, else the step of the
instruction IR holds. `P_UNDEF_OP` is an argument here (00_scope.md R6). -/

namespace Sys2Proof.Machine

/-- The word the step of a STAGE1 state fetches, `MemRead(PC, 1)` (42_register_file.md R116). -/
def fetchWord (s : State) : Word := s.mem.readWord s.pc

/-- Opcodes 11 to 15, the undefined encodings (30_encoding.md R66). -/
def undefinedOpcode (op : BitVec 4) : Bool := 11 ≤ op.toNat

/-- Whether the option refuses this step: it accepts no word of opcode 11 to 15 at fetch when it is `refuse`
(93_implementation_defined.md entry 1). -/
def refusesFetch (opt : UndefOp) (s : State) : Bool :=
  opt == .refuse && s.stage == .stage1 && undefinedOpcode (opcodeOf (fetchWord s))

/-- One clock step (43_datapath.md R122). The sequencer decodes the current IR in every stage (41_sequencer.md R92): in STAGE1 that is
the instruction before, and no line it drives is consumed there (R108). -/
def clockStep (opt : UndefOp) (s : State) : Host.Outcome State Fault Refusal :=
  if s.clr then .next (clearEdge s)
  else if refusesFetch opt s then .refused (.undefinedOpcode (opcodeOf (fetchWord s)))
  else exec (decode s.ir) s

/-- The state with a word placed where the next fetch reads, in STAGE1 and with no clear pending, so that the very next step is the
first of that instruction's three (10_state.md R25; log entry 6). -/
def placeWord (s : State) (w : Word) : State :=
  { s with mem := s.mem.writeWord s.pc w, stage := .stage1, clr := false }

end Sys2Proof.Machine
end

