-- ==== Sys2Proof/Machine/Step.lean ====
section
/-! DEFINITION. The step of the machine: one clock step with the spec's value of `P_UNDEF_OP` (43_datapath.md R122; 00_scope.md R6, R11). -/

namespace Sys2Proof.Machine

/-- One step: one clock edge (00_scope.md R11), an instruction being three of them (41_sequencer.md R111). -/
def step (s : State) : Host.Outcome State Fault Refusal := clockStep Config.undefOp s

/-- The state with the instruction whose bits are `w` placed where the next step fetches (log entry 6). -/
def State.withFetchWord (s : State) (nbits w : Nat) : State := placeWord s (BitVec.ofNat 16 (w % 2 ^ nbits))

end Sys2Proof.Machine
end

