-- ==== Sys2Proof/Machine/Text.lean ====
section
/-! DEFINITION. Numbers as the loader's image format and the assembler language write them (30_encoding.md R71, R74). -/

namespace Sys2Proof.Machine

/-- The value of a digit character; hexadecimal letters in either case (log entry 9). -/
def digitValue (c : Char) : Option Nat :=
  let n := c.toNat
  if 48 ≤ n ∧ n ≤ 57 then some (n - 48)
  else if 97 ≤ n ∧ n ≤ 102 then some (n - 87)
  else if 65 ≤ n ∧ n ≤ 70 then some (n - 55)
  else none

/-- The digits of a number in the base given, most significant first, read onto the value so far. -/
def digitsOnto (base : Nat) (value : Nat) : List Char → Option Nat
  | [] => some value
  | c :: cs =>
    match digitValue c with
    | some d => if d < base then digitsOnto base (base * value + d) cs else none
    | none => none

/-- A number of at least one digit in the base given. -/
def readDigits (base : Nat) : List Char → Option Nat
  | [] => none
  | cs => digitsOnto base 0 cs

/-- "A number is decimal (`42`), hexadecimal (`0x2A`) or binary (`0b101010`)" (30_encoding.md R71). -/
def readNumber : List Char → Option Nat
  | '0' :: 'x' :: cs => readDigits 16 cs
  | '0' :: 'b' :: cs => readDigits 2 cs
  | cs => readDigits 10 cs

/-- The 256 words of an image given as entries; "unlisted addresses default to 0" (30_encoding.md R74). -/
def imageOf (entries : List (Nat × Word)) : List Word :=
  (List.range 256).map fun a => (entries.lookup a).getD 0x0000

end Sys2Proof.Machine
end

