-- ==== Sys2Proof/Machine/Assembler.lean ====
section
/-! DEFINITION. The spec's assembler language (30_encoding.md R70 to R73; D17, D18): the text of a program to the words it places. It is
notation, not hardware; nothing in the core's step uses it. -/

namespace Sys2Proof.Machine

/-- Why a program is refused (30_encoding.md R70, R71). -/
inductive AsmError where
  /-- a line that is not `[label:] mnemonic [operand] [; comment]` -/
  | malformedLine
  /-- a number outside its range, or a label no statement defines -/
  | badOperand
  /-- a statement past address 0xFF -/
  | addressRange
  /-- two statements at one address (log entry 9) -/
  | duplicateAddress
  /-- a label defined twice (log entry 9) -/
  | duplicateLabel
deriving DecidableEq, Repr

/-- A line's tokens: runs of other characters, and the two marks `:` and `#`. -/
inductive Token where
  | run (cs : List Char)
  | colon
  | hash
deriving DecidableEq, Repr

/-- The run read so far, if any, in front of the tokens after it. -/
def flushRun (run : List Char) (rest : List Token) : List Token :=
  match run with
  | [] => rest
  | cs => .run cs :: rest

/-- The tokens of a line; a comment starts at `;` (30_encoding.md R70). DESIGN CHOICE (log entry 9): the spec writes `label:` and `#v` with
no space and says nothing of one; here spaces and tabs may stand on either side of `:` and `#`, or be left out there. -/
def tokensFrom (run : List Char) : List Char → List Token
  | [] => flushRun run []
  | c :: cs =>
    if c = ';' then flushRun run []
    else if c = ' ' ∨ c = '\t' then flushRun run (tokensFrom [] cs)
    else if c = ':' then flushRun run (.colon :: tokensFrom [] cs)
    else if c = '#' then flushRun run (.hash :: tokensFrom [] cs)
    else tokensFrom (run ++ [c]) cs

/-- The lower-case mnemonics (30_encoding.md R64, R70). -/
def mnemonicTable : List (List Char × Mnemonic) :=
  [("move".toList, .move), ("add".toList, .add), ("sub".toList, .sub), ("and".toList, .and),
   ("load".toList, .load), ("store".toList, .store), ("addm".toList, .addm), ("subm".toList, .subm),
   ("jumpu".toList, .jumpu), ("jumpz".toList, .jumpz), ("jumpnz".toList, .jumpnz)]

/-- The characters of an identifier, a letter or underscore first (30_encoding.md R71; log entry 9). -/
def isIdentifier : List Char → Bool
  | [] => false
  | c :: cs => (c.isAlpha || c == '_') && cs.all fun d => d.isAlphanum || d == '_'

/-- An address operand: a number or a label (30_encoding.md R70). -/
def readOperand (cs : List Char) : Option Operand :=
  match readNumber cs with
  | some n => some (.num n)
  | none => if isIdentifier cs then some (.label cs) else none

/-- A statement from its tokens: `m #v` for the immediate forms, `m a` for the memory forms and jumps (30_encoding.md R70),
`.word w` and `halt` (R72). -/
def readStmt : List Token → Option Stmt
  | [.run m] => if m = "halt".toList then some (.word 0xFFFF) else none
  | [.run m, .run o] =>
    if m = ".word".toList then (readNumber o).map .word
    else
      match mnemonicTable.lookup m with
      | some mn => if mn.isImmediate then none else (readOperand o).map (.instr mn)
      | none => none
  | [.run m, .hash, .run o] =>
    match mnemonicTable.lookup m with
    | some mn => if mn.isImmediate then (readNumber o).map fun n => .instr mn (.num n) else none
    | none => none
  | _ => none

/-- The address a listing gives in front of a line (30_encoding.md R71), and the tokens after it. -/
def takeAddress : List Token → Option Nat × List Token
  | .run n :: .colon :: rest =>
    match readNumber n with
    | some a => (some a, rest)
    | none => (none, .run n :: .colon :: rest)
  | ts => (none, ts)

/-- The label in front of a statement (30_encoding.md R70, R71), and the tokens after it. -/
def takeLabel : List Token → Option Label × List Token
  | .run l :: .colon :: rest => if isIdentifier l then (some l, rest) else (none, .run l :: .colon :: rest)
  | ts => (none, ts)

/-- A line: nothing (blank or comment alone), or an item. -/
def readLine (line : List Char) : Except AsmError (Option Item) :=
  match tokensFrom [] line with
  | [] => .ok none
  | ts =>
    let (addr, afterAddr) := takeAddress ts
    let (label, afterLabel) := takeLabel afterAddr
    match readStmt afterLabel with
    | some st => .ok (some { addr := addr, label := label, stmt := st })
    | none => .error .malformedLine

/-- The items of a program's lines. -/
def readLines : List (List Char) → Except AsmError (List Item)
  | [] => .ok []
  | l :: ls =>
    match readLine l, readLines ls with
    | .error e, _ => .error e
    | _, .error e => .error e
    | .ok none, .ok items => .ok items
    | .ok (some it), .ok items => .ok (it :: items)

/-- Each item's word address: the next one, starting at 0, unless the listing gives one (30_encoding.md R71). -/
def placeItems (next : Nat) : List Item → List (Nat × Item)
  | [] => []
  | it :: items => (it.addr.getD next, it) :: placeItems (it.addr.getD next + 1) items

/-- The labels of placed items, each with its statement's word address (30_encoding.md R71). -/
def labelsOf (placed : List (Nat × Item)) : List (Label × Nat) :=
  placed.filterMap fun p => p.2.label.map fun l => (l, p.1)

/-- The instruction of a mnemonic and an operand value (30_encoding.md R64). -/
def mnemonicInstr (m : Mnemonic) (v : Byte) : Instr :=
  match m with
  | .move => .move v
  | .add => .add v
  | .sub => .sub v
  | .and => .and v
  | .load => .load v
  | .store => .store v
  | .addm => .addm v
  | .subm => .subm v
  | .jumpu => .jumpu v
  | .jumpz => .jumpz v
  | .jumpnz => .jumpnz v

/-- The value an operand stands for (30_encoding.md R71). -/
def operandValue (env : List (Label × Nat)) : Operand → Nat
  | .num n => n
  | .label l => (env.lookup l).getD 0

/-- The word of a statement: `encode(op, v)` (30_encoding.md R73), or the word given (R72). -/
def stmtWord (env : List (Label × Nat)) : Stmt → Word
  | .instr m o => encode (mnemonicInstr m (BitVec.ofNat 8 (operandValue env o)))
  | .word w => BitVec.ofNat 16 w

/-- Whether a list holds no element twice. -/
def allDistinct : List Label → Bool
  | [] => true
  | l :: ls => !ls.contains l && allDistinct ls

/-- The words a program places, each with its address, or why it is refused (30_encoding.md R70 to R73). -/
def assembleItems (items : List Item) : Except AsmError (List (Nat × Word)) :=
  let placed := placeItems 0 items
  let env := labelsOf placed
  let entries := placed.map fun p => (p.1, stmtWord env p.2.stmt)
  if !placed.all (fun p => WellFormed.byteValue p.1) then .error .addressRange
  else if !allDistinct (env.map (·.1)) then .error .duplicateLabel
  else if !placed.all (fun p => WellFormed.stmt (env.map (·.1)) p.2.stmt) then .error .badOperand
  else if WellFormed.listing entries then .ok entries
  else .error .duplicateAddress

/-- A program's text, line by line, to the words it places. -/
def assemble (ls : List (List Char)) : Except AsmError (List (Nat × Word)) :=
  match readLines ls with
  | .error e => .error e
  | .ok items => assembleItems items

end Sys2Proof.Machine
end

