-- ==== Sys2Proof/Machine/Loader.lean ====
section
/-! DEFINITION. The contract of the external program loader: the two-column text image (30_encoding.md R74; D14, D26). -/

namespace Sys2Proof.Machine

/-- Why a line or an image is rejected (30_encoding.md R74). -/
inductive LoadError where
  /-- no two columns, or an address that is no decimal number -/
  | malformedLine
  /-- "address out of 0–255" -/
  | addressRange
  /-- a data column of other than 16 characters (D14) -/
  | dataLength
  /-- "non-binary data line" -/
  | notBinary
  /-- an address listed twice (D26) -/
  | duplicateAddress
deriving DecidableEq, Repr

/-- A line cut at its first space: the two columns (30_encoding.md R74; log entry 8). -/
def twoColumns : List Char → Option (List Char × List Char)
  | [] => none
  | ' ' :: cs => some ([], cs)
  | c :: cs => (twoColumns cs).map fun p => (c :: p.1, p.2)

/-- The data column: exactly 16 characters `0` or `1`, most significant bit first (30_encoding.md R74; D14). -/
def readData16 (cs : List Char) : Except LoadError Word :=
  if cs.length ≠ 16 then .error .dataLength
  else
    match readDigits 2 cs with
    | some n => .ok (BitVec.ofNat 16 n)
    | none => .error .notBinary

/-- One line `<decimal address> <16-bit binary string>` (30_encoding.md R74). -/
def loadLine (line : List Char) : Except LoadError (Nat × Word) :=
  match twoColumns line with
  | none => .error .malformedLine
  | some (a, d) =>
    match readDigits 10 a with
    | none => .error .malformedLine
    | some n =>
      if WellFormed.byteValue n then
        match readData16 d with
        | .ok w => .ok (n, w)
        | .error e => .error e
      else .error .addressRange

/-- The entries of an image's lines, in order. -/
def loadLines : List (List Char) → Except LoadError (List (Nat × Word))
  | [] => .ok []
  | l :: ls =>
    match loadLine l with
    | .error e => .error e
    | .ok entry =>
      match loadLines ls with
      | .error e => .error e
      | .ok entries => .ok (entry :: entries)

/-- The 256 words a text image gives, or why it is rejected (30_encoding.md R74). -/
def loadImage (ls : List (List Char)) : Except LoadError (List Word) :=
  match loadLines ls with
  | .error e => .error e
  | .ok entries => if WellFormed.listing entries then .ok (imageOf entries) else .error .duplicateAddress

end Sys2Proof.Machine
end

