-- ==== Sys2Proof/Machine/Driver.lean ====
section
/-! DEFINITION. What the host driver does with the core (43_datapath.md R125, R126; 70_reset_and_hazards.md R190, R195): boot, reset, observe,
and run to the sentinel; and the block's ports (D1). -/

namespace Sys2Proof.Machine

/-- Construction and the first clear step (70_reset_and_hazards.md R195): the state a run starts from, with the image in memory and ACC
and IR the draws of that clear step (10_state.md R33, R34); refused unless the image has exactly 256 words (20_memory.md R42). -/
def Driver.boot (image : List Word) : Host.Outcome State Fault Refusal :=
  if WellFormed.image image then
    .next { State.afterClear (Config.accClr 0) (Config.irClr 0) (Memory.ofWordsFrom 0 image) with tick := 1 }
  else .refused (.memorySize image.length)

/-- The host's `reset()` call: the clear input is high in the next step (70_reset_and_hazards.md R190). -/
def Driver.reset (s : State) : State := { s with clr := true }

/-- What the host observes after each call (43_datapath.md R125). -/
structure Observation where
  ir      : Word
  acc     : Byte
  pc      : Addr
  dataOut : Word
deriving DecidableEq, Repr

/-- The observation of the state after a step: `data_out = (draw P_DOUT_HI) ++ ACC'` (43_datapath.md R125; D10, D25). -/
def Driver.observe (s : State) : Observation :=
  { ir := s.ir, acc := s.acc, pc := s.pc, dataOut := Config.doutHi s.tick ++ s.acc }

/-- The block's outputs to the memory collaborator in a step (92_eei_decisions.md D1). -/
structure Ports where
  memAddr  : Addr
  memWdata : Word
  romEn    : Bool
  ramEn    : Bool
  ramWr    : Bool
deriving DecidableEq, Repr

/-- The outputs of the step from `s`, functions of the state before the edge (20_memory.md R43, R44, R46; D1). -/
def Driver.ports (s : State) : Ports :=
  let l := linesOf (opcodeOf s.ir) s
  { memAddr := addressOf (opcodeOf s.ir) (operandOf s.ir) s, memWdata := dataOut s,
    romEn := l.romEn, ramEn := l.ramEn, ramWr := l.ramWr }

/-- The word whose fetch ends a run (30_encoding.md R75). -/
def Driver.sentinel : Word := 0xFFFF

/-- Whether the step from `s` to `t` fetched the sentinel: a STAGE1 step, not a clear step, after which IR reads 0xFFFF
(43_datapath.md R126). -/
def Driver.fetchedSentinel (s t : State) : Bool := s.stage == .stage1 && !s.clr && t.ir == Driver.sentinel

/-- A run of at most `fuel` steps to the first fetch of the sentinel: the steps taken and the final state (43_datapath.md R126); none
where no sentinel is fetched in that many steps (R127). -/
def Driver.runToSentinel : Nat → State → Option (Nat × State)
  | 0, _ => none
  | fuel + 1, s =>
    match step s with
    | .next t =>
      if Driver.fetchedSentinel s t then some (1, t)
      else (Driver.runToSentinel fuel t).map fun r => (r.1 + 1, r.2)
    | .fault _ => none
    | .refused _ => none

end Sys2Proof.Machine
end

