-- ==== Sys2Proof/Safety.lean ====
section
/-! DEFINITION. The terms the claims are stated in: where an instruction is about to be fetched, the control-line table of R107, the memory
invariant, and the relation "equal but for bits [11:8]" (30_encoding.md R63). -/

namespace Sys2Proof.Safety

open Sys2Proof.Machine

/-- The machine is about to fetch `i`: STAGE1, no clear, and the word at PC decodes to `i` (43_datapath.md R122; 95_test_vectors.md,
"in STAGE1 at `a`"). -/
def AtFetch (i : Instr) (s : State) : Prop := s.stage = .stage1 ∧ s.clr = false ∧ decode (fetchWord s) = i

/-- The outcome of `n` steps of the machine. -/
def steps (n : Nat) (s : State) : Host.Outcome State Fault Refusal := Host.Core.run Sys2Proof.core n s

/-- The state after a whole instruction cycle that began in `s`: STAGE1 again, IR holds the fetched word, and ACC, PC and memory
are those given (44_instr_immediate.md R128, "net effect"). -/
def cycleEnd (s : State) (acc : Byte) (pc : Addr) (mem : Memory) : State :=
  { s with ir := fetchWord s, acc := acc, pc := pc, stage := .stage1, mem := mem, tick := s.tick + 3 }

/-- The state after the STAGE1 step: IR holds the fetched word, nothing else changed (41_sequencer.md R108). -/
def fetchDone (s : State) : State := { s with ir := fetchWord s, stage := .stage2, tick := s.tick + 1 }

/-- The state after a STAGE2 step that leaves PC at the value given (41_sequencer.md R107). -/
def stage2Done (s : State) (pc : Addr) : State := { s with pc := pc, stage := .stage3, tick := s.tick + 1 }

/-- The state after a STAGE3 step that leaves ACC, PC and memory at the values given (41_sequencer.md R107). -/
def stage3Done (s : State) (acc : Byte) (pc : Addr) (mem : Memory) : State :=
  { s with acc := acc, pc := pc, mem := mem, stage := .stage1, tick := s.tick + 1 }

/-- Whether an instruction loads PC, given the ACC before it: jumpu; jumpz with Z = 1; jumpnz with Z = 0 (10_state.md R25). -/
def Taken (acc : Byte) : Instr → Prop
  | .jumpu _ => True
  | .jumpz _ => acc = 0x00
  | .jumpnz _ => acc ≠ 0x00
  | .move _ | .add _ | .sub _ | .and _ | .load _ | .store _ | .addm _ | .subm _ => False
  | .undef11 _ | .undef12 _ | .undef13 _ | .undef14 _ | .undef15 _ => False

/-- The instructions that write ACC, opcodes 0, 1, 2, 3, 4, 6, 7 (10_state.md R23). -/
def WritesAcc : Instr → Prop
  | .move _ | .add _ | .sub _ | .and _ | .load _ | .addm _ | .subm _ => True
  | .store _ | .jumpu _ | .jumpz _ | .jumpnz _ => False
  | .undef11 _ | .undef12 _ | .undef13 _ | .undef14 _ | .undef15 _ => False

/-- The undefined opcodes 11 to 15 (30_encoding.md R66). -/
def IsUndefined : Instr → Prop
  | .undef11 _ | .undef12 _ | .undef13 _ | .undef14 _ | .undef15 _ => True
  | .move _ | .add _ | .sub _ | .and _ | .load _ | .store _ | .addm _ | .subm _ => False
  | .jumpu _ | .jumpz _ | .jumpnz _ => False

/-- Every byte of memory reads the same in both states. -/
def SameBytes (s t : State) : Prop := ∀ k : Nat, t.mem.readByte k = s.mem.readByte k

/-- The step function of 43_datapath.md R122 with `clr` false, line by line as the spec writes it. -/
def datapathStep (s : State) : State :=
  let z := s.acc == 0x00
  let op := s.ir.extractLsb' 12 4
  let imm := s.ir.extractLsb' 0 8
  let y (k : BitVec 4) := op == k
  let sub := y 6 || y 7
  let memop := y 4 || y 5 || sub
  let q1 := s.stage == .stage1
  let q2 := s.stage == .stage2
  let q3 := s.stage == .stage3
  let irEn := q1
  let addrSel := memop && (q2 || q3)
  let dataSel := y 4 || sub
  let ramWr := q3 && y 5
  let pcLd := y 8 || (y 9 && z) || (y 10 && !z)
  let pcEn := (pcLd && q3) || (!pcLd && q2)
  let accEn := (y 0 || y 1 || y 2 || y 3 || y 4 || sub) && q3
  let accCtl := BitVec.ofBool (y 0 || y 4) ++ BitVec.ofBool (y 3) ++ BitVec.ofBool (y 2 || y 7)
  let addr := if addrSel then imm else s.pc
  let rdata := s.mem.readWord addr
  let b : Byte := if dataSel then rdata.extractLsb' 0 8 else imm
  let aluY := alu s.acc b accCtl
  let dout := Config.storeHi s.tick ++ s.acc
  { s with
    ir := if irEn then rdata else s.ir
    acc := if accEn then aluY else s.acc
    pc := if pcEn then (if pcLd then imm else s.pc + 1) else s.pc
    mem := if ramWr then s.mem.writeWord addr dout else s.mem
    stage := match s.stage with
      | .stage1 => .stage2
      | .stage2 => .stage3
      | .stage3 => .stage1
    tick := s.tick + 1 }

/-- The memory invariant: the one canonical form. -/
def MemCanonical (s : State) : Prop := s.mem.wf = true

/-- One row of the table of 41_sequencer.md R107, in its column order; `stage3` chooses between its two groups of columns. -/
def tableRow (dataSel : Bool) (ctl : BitVec 3) (pcLd ram2 pcEn2 ram3 wr3 pcEn3 acc3 stage3 : Bool) : Lines :=
  { irEn := false, romEn := false, dataSel := dataSel, accCtl := ctl, pcLd := pcLd,
    ramEn := if stage3 then ram3 else ram2, addrSel := if stage3 then ram3 else ram2,
    ramWr := stage3 && wr3, pcEn := if stage3 then pcEn3 else pcEn2, accEn := stage3 && acc3 }

/-- The table of 41_sequencer.md R107: the lines of an instruction in STAGE2 and, where `stage3`, in STAGE3. -/
def controlTable (stage3 z : Bool) : Instr → Lines
  | .move _   => tableRow false 0b100 false false true false false false true stage3
  | .add _    => tableRow false 0b000 false false true false false false true stage3
  | .sub _    => tableRow false 0b001 false false true false false false true stage3
  | .and _    => tableRow false 0b010 false false true false false false true stage3
  | .load _   => tableRow true  0b100 false true  true true  false false true stage3
  | .store _  => tableRow false 0b000 false true  true true  true  false false stage3
  | .addm _   => tableRow true  0b000 false true  true true  false false true stage3
  | .subm _   => tableRow true  0b001 false true  true true  false false true stage3
  | .jumpu _  => tableRow false 0b000 true false false false false true false stage3
  | .jumpz _  =>
    if z then tableRow false 0b000 true false false false false true false stage3
    else tableRow false 0b000 false false true false false false false stage3
  | .jumpnz _ =>
    if z then tableRow false 0b000 false false true false false false false stage3
    else tableRow false 0b000 true false false false false true false stage3
  | .undef11 _ => tableRow false 0b000 false false true false false false false stage3
  | .undef12 _ => tableRow false 0b000 false false true false false false false stage3
  | .undef13 _ => tableRow false 0b000 false false true false false false false stage3
  | .undef14 _ => tableRow false 0b000 false false true false false false false stage3
  | .undef15 _ => tableRow false 0b000 false false true false false false false stage3

/-- Two words that differ at most in bits [11:8] (30_encoding.md R63). -/
def SameButUnused (v w : Word) : Prop := opcodeOf v = opcodeOf w ∧ operandOf v = operandOf w

/-- Two states that differ at most in bits [11:8] of IR and of memory words (30_encoding.md R63). -/
def StatesSameButUnused (s t : State) : Prop :=
  SameButUnused s.ir t.ir ∧ s.acc = t.acc ∧ s.pc = t.pc ∧ s.stage = t.stage ∧ s.clr = t.clr ∧ s.tick = t.tick ∧
    ∀ a : Addr, SameButUnused (s.mem.readWord a) (t.mem.readWord a)

/-- The stage `n` clear-free steps after a STAGE1 state (10_state.md R35). -/
def stageAfter (n : Nat) : Stage :=
  match n % 3 with
  | 0 => .stage1
  | 1 => .stage2
  | _ => .stage3

end Sys2Proof.Safety
end

