-- ==== Sys2Proof/Certificates/Slice0/Obligations.lean ====
section
/-! DEFINITION. The statements for the provers. Rules are those of spec/; "model's choice" marks what a log entry decides. -/

open Sys2Proof Sys2Proof.Machine Sys2Proof.Safety

/-! ### Encoding -/

/-- R69: the decoder's fields, the encoder's formula, and the two round trips, for all 16 opcodes and 256 operands. -/
def Obligations.DecodeEncodeAgree : Prop :=
  (∀ w : Word, (decode w).opcode = w.extractLsb' 12 4 ∧ (decode w).operand = w.extractLsb' 0 8 ∧
    (11 ≤ (w.extractLsb' 12 4).toNat → IsUndefined (decode w))) ∧
  (∀ i : Instr, encode i = (i.opcode.setWidth 16 <<< 12) ||| i.operand.setWidth 16) ∧
  (∀ i : Instr, decode (encode i) = i) ∧
  (∀ w : Word, encode (decode w) = w ↔ w.extractLsb' 8 4 = 0)

/-- Words written out bit by bit from R61 and R64, one or two a family, decode to their instructions. -/
def Obligations.SpecWordsDecode : Prop :=
  decode 0b0000000000000100 = .move 0x04 ∧ decode 0b0011000000001111 = .and 0x0F ∧
  decode 0b0100000000100000 = .load 0x20 ∧ decode 0b0101000011111111 = .store 0xFF ∧
  decode 0b1000000000000110 = .jumpu 0x06 ∧ decode 0b1010000000000001 = .jumpnz 0x01 ∧
  decode 0b1101000100100011 = .undef13 0x23 ∧ decode 0b1111111111111111 = .undef15 0xFF

/-- R65: exactly one decode line is asserted for each opcode, and the lines of 11 to 15 drive nothing: with one of them asserted the
control lines are the fetch's in STAGE1, the increment of PC in STAGE2, and no other. -/
def Obligations.OneHotDecode : Prop :=
  (∀ op k : BitVec 4, decodeLine op k = true ↔ op = k) ∧
  ∀ (stage : Stage) (z : Bool) (op : BitVec 4), 11 ≤ op.toNat →
    lines stage op z =
      { irEn := stage == .stage1, romEn := stage == .stage1, ramEn := false, addrSel := false, dataSel := false,
        ramWr := false, pcLd := false, pcEn := stage == .stage2, accEn := false, accCtl := 0b000 }

/-- R73: a statement `mnemonic v` assembles to the word that decodes back to that instruction and operand, bits [11:8] zero. -/
def Obligations.AssembledWordDecodes : Prop :=
  ∀ (env : List (Label × Nat)) (m : Mnemonic) (v : Nat), v < 256 →
    decode (stmtWord env (.instr m (.num v))) = mnemonicInstr m (BitVec.ofNat 8 v) ∧
    unusedOf (stmtWord env (.instr m (.num v))) = 0

/-- R74: the image a well-formed listing gives has 256 words, each listed address holding its word and every other 0x0000. -/
def Obligations.LoadedImageHoldsListing : Prop :=
  ∀ (ls : List (List Char)) (es : List (Nat × Word)), loadLines ls = .ok es →
    (WellFormed.listing es = false → loadImage ls = .error .duplicateAddress) ∧
    (WellFormed.listing es = true → ∃ ws, loadImage ls = .ok ws ∧ ws.length = 256 ∧
      (∀ a w, (a, w) ∈ es → ws[a]? = some w) ∧ ∀ a, a < 256 → (∀ w, (a, w) ∉ es) → ws[a]? = some 0x0000)

/-! ### ALU and sequencer -/

/-- R81, R82: the ALU for all eight values of CTL, the adder by its two's-complement formula and as the difference it gives. -/
def Obligations.AluTruthTable : Prop :=
  ∀ a b : Byte, alu a b 0b001 = a + (~~~b + 1) ∧
    alu a b 0b000 = a + b ∧ alu a b 0b001 = a - b ∧ alu a b 0b010 = a &&& b ∧ alu a b 0b011 = a &&& b ∧
    alu a b 0b100 = b ∧ alu a b 0b101 = b ∧ alu a b 0b110 = b ∧ alu a b 0b111 = b

/-- R81, R86: the adder's result is the sum or difference modulo 256 under the unsigned and under the two's-complement reading. -/
def Obligations.AdderWrapsBothReadings : Prop :=
  ∀ a b : Byte,
    (addsub a b false).toNat = (a.toNat + b.toNat) % 256 ∧
    (addsub a b true).toNat = (a.toNat + (256 - b.toNat)) % 256 ∧
    (addsub a b false).toInt = (a.toInt + b.toInt).bmod 256 ∧
    (addsub a b true).toInt = (a.toInt - b.toInt).bmod 256

/-- R107: the control lines of every instruction in STAGE2 and STAGE3 are the table's, and the three lines without a stage term are
the same in all stages. -/
def Obligations.ControlLinesAreTheTable : Prop :=
  ∀ (i : Instr) (z : Bool),
    lines .stage2 i.opcode z = controlTable false z i ∧ lines .stage3 i.opcode z = controlTable true z i ∧
    ∀ stage : Stage, (lines stage i.opcode z).dataSel = (controlTable false z i).dataSel ∧
      (lines stage i.opcode z).accCtl = (controlTable false z i).accCtl ∧
      (lines stage i.opcode z).pcLd = (controlTable false z i).pcLd

/-- R108: the STAGE1 lines, that the effect of a STAGE1 step is the same for every IR before it, and that read data reaches the ALU
in STAGE2 and STAGE3 only where the read is enabled. -/
def Obligations.FetchStageLines : Prop :=
  (∀ (op : BitVec 4) (z : Bool), ∃ l, lines .stage1 op z = l ∧ l.irEn = true ∧ l.romEn = true ∧ l.ramEn = false ∧
    l.addrSel = false ∧ l.ramWr = false ∧ l.pcEn = false ∧ l.accEn = false ∧
    l.dataSel = (lines .stage2 op z).dataSel ∧ l.accCtl = (lines .stage2 op z).accCtl ∧ l.pcLd = (lines .stage2 op z).pcLd) ∧
  (∀ (s : State) (previous : Word), s.stage = .stage1 → s.clr = false →
    step { s with ir := previous } = .next (fetchDone s)) ∧
  ∀ (stage : Stage) (op : BitVec 4) (z : Bool), stage ≠ .stage1 → (lines stage op z).irEn = false ∧
    ((lines stage op z).dataSel = true → (lines stage op z).ramEn = true)

/-- R109: which memory enables can be asserted together. -/
def Obligations.EnableExclusivity : Prop :=
  ∀ (stage : Stage) (op : BitVec 4) (z : Bool), ∃ l, lines stage op z = l ∧
    ¬(l.romEn = true ∧ l.ramEn = true) ∧ ¬(l.romEn = true ∧ l.ramWr = true) ∧ (l.ramWr = true → l.ramEn = true) ∧
    ((l.ramEn = true ∧ l.ramWr = true) ↔ (stage = .stage3 ∧ op = 5))

/-! ### One step -/

/-- R122: with no clear, the machine's step, which decodes IR and runs the instruction's meaning, is the spec's step function. -/
def Obligations.StepIsDatapathStep : Prop :=
  ∀ s : State, s.clr = false → step s = .next (datapathStep s)

/-- R92, R108, R122: with no clear, a STAGE1 step is that of the instruction at PC, a later one that of the instruction in IR. -/
def Obligations.StepRunsDecodedInstruction : Prop :=
  ∀ s : State, s.clr = false →
    (s.stage = .stage1 → step s = exec (decode (s.mem.readWord s.pc)) s) ∧
    (s.stage ≠ .stage1 → step s = exec (decode s.ir) s)

/-- Log entry 6 (the model's choice of how a word is placed): the next step's fetch reads exactly the instruction placed. -/
def Obligations.PlacedWordIsFetchedNext : Prop :=
  ∀ (s : State) (w : Nat), MemCanonical s → w < 2 ^ 16 → ∃ i, decodeTableWord 16 w = some i ∧ AtFetch i (s.withFetchWord 16 w) ∧
    step (s.withFetchWord 16 w) = exec i (s.withFetchWord 16 w)

/-- R170: no step faults and none is refused. -/
def Obligations.EveryStepCompletes : Prop := ∀ s : State, ∃ t, step s = .next t

/-- R90: the stage after every step. -/
def Obligations.StageTransitions : Prop :=
  ∀ s t : State, step s = .next t →
    (s.clr = true → t.stage = .stage1) ∧
    (s.clr = false → (s.stage = .stage1 → t.stage = .stage2) ∧ (s.stage = .stage2 → t.stage = .stage3) ∧
      (s.stage = .stage3 → t.stage = .stage1))

/-- R116: outside a clear step IR takes the word at PC at every STAGE1 edge and holds at every other. -/
def Obligations.IrLoadsOnlyInFetch : Prop :=
  ∀ s t : State, s.clr = false → step s = .next t →
    (s.stage = .stage1 → t.ir = s.mem.readWord s.pc) ∧ (s.stage ≠ .stage1 → t.ir = s.ir)

/-- R117: outside a clear step ACC takes the ALU output at the STAGE3 edge of opcodes 0, 1, 2, 3, 4, 6, 7 and holds at every other. -/
def Obligations.AccWrittenOnlyAtCommit : Prop :=
  ∀ s t : State, s.clr = false → step s = .next t →
    t.acc =
      if s.stage = .stage3 ∧ (opcodeOf s.ir).toNat ∈ [0, 1, 2, 3, 4, 6, 7] then
        alu s.acc
          (if (opcodeOf s.ir).toNat ∈ [4, 6, 7] then loByte (s.mem.readWord (operandOf s.ir)) else operandOf s.ir)
          (if (opcodeOf s.ir).toNat ∈ [0, 4] then 0b100 else if (opcodeOf s.ir).toNat = 3 then 0b010
            else if (opcodeOf s.ir).toNat ∈ [2, 7] then 0b001 else 0b000)
      else s.acc

/-- R118 with R100, R101 and R119: the PC counter outside a clear step. -/
def Obligations.PcCounter : Prop :=
  ∀ s t : State, s.clr = false → step s = .next t →
    (Taken s.acc (decode s.ir) → t.pc = if s.stage = .stage3 then operandOf s.ir else s.pc) ∧
    (¬Taken s.acc (decode s.ir) → t.pc.toNat = if s.stage = .stage2 then (s.pc.toNat + 1) % 256 else s.pc.toNat)

/-- R46: only STAGE3 of store writes memory, the word `P_STORE_HI ++ ACC` at IR[7:0] with ACC the value before the edge. The
statement holds for every value of the free byte `Config.storeHi s.tick`. -/
def Obligations.OnlyStoreWritesMemory : Prop :=
  ∀ s t : State, s.clr = false → step s = .next t →
    (s.stage = .stage3 ∧ opcodeOf s.ir = 5 →
      t.mem = s.mem.writeWord (operandOf s.ir) (Config.storeHi s.tick ++ s.acc)) ∧
    (¬(s.stage = .stage3 ∧ opcodeOf s.ir = 5) → t.mem = s.mem)

/-- R43: the memory address of every step. -/
def Obligations.AddressMultiplexer : Prop :=
  ∀ s : State, (Driver.ports s).memAddr =
    if s.stage ≠ .stage1 ∧ (opcodeOf s.ir).toNat ∈ [4, 5, 6, 7] then operandOf s.ir else s.pc

/-- D1, R41, R46: what a step with no clear does to memory is what the block's ports say: with `ram_wr` low nothing, with it high a
write of `mem_wdata` at `mem_addr`, whose bits [7:0] are ACC. -/
def Obligations.PortsDriveTheWrite : Prop :=
  ∀ s t : State, s.clr = false → step s = .next t →
    ((Driver.ports s).ramWr = false → t.mem = s.mem) ∧
    ((Driver.ports s).ramWr = true →
      t.mem = s.mem.writeWord (Driver.ports s).memAddr (Driver.ports s).memWdata ∧ loByte (Driver.ports s).memWdata = s.acc)

/-- R49: a write changes exactly the one addressed word. -/
def Obligations.WriteChangesOneWord : Prop :=
  ∀ (m : Memory) (a b : Addr) (w : Word), m.wf = true →
    (m.writeWord a w).readWord b = if b = a then w else m.readWord b

/-! ### The instructions, stage by stage: where each completes -/

/-- R128: move, add, sub and and complete in every stage, with these states after the edge. -/
def Obligations.ImmediateInstructionsComplete : Prop :=
  ∀ (imm : Byte) (s : State),
    (s.stage = .stage1 →
      exec (.move imm) s = .next (fetchDone s) ∧ exec (.add imm) s = .next (fetchDone s) ∧
      exec (.sub imm) s = .next (fetchDone s) ∧ exec (.and imm) s = .next (fetchDone s)) ∧
    (s.stage = .stage2 →
      exec (.move imm) s = .next (stage2Done s (s.pc + 1)) ∧ exec (.add imm) s = .next (stage2Done s (s.pc + 1)) ∧
      exec (.sub imm) s = .next (stage2Done s (s.pc + 1)) ∧ exec (.and imm) s = .next (stage2Done s (s.pc + 1))) ∧
    (s.stage = .stage3 →
      exec (.move imm) s = .next (stage3Done s imm s.pc s.mem) ∧
      exec (.add imm) s = .next (stage3Done s (s.acc + imm) s.pc s.mem) ∧
      exec (.sub imm) s = .next (stage3Done s (s.acc - imm) s.pc s.mem) ∧
      exec (.and imm) s = .next (stage3Done s (s.acc &&& imm) s.pc s.mem))

/-- R138: load, store, addm and subm complete in every stage, with these states after the edge; a store's upper byte is the free
value of the step. -/
def Obligations.MemoryInstructionsComplete : Prop :=
  ∀ (ea : Addr) (s : State),
    (s.stage = .stage1 →
      exec (.load ea) s = .next (fetchDone s) ∧ exec (.store ea) s = .next (fetchDone s) ∧
      exec (.addm ea) s = .next (fetchDone s) ∧ exec (.subm ea) s = .next (fetchDone s)) ∧
    (s.stage = .stage2 →
      exec (.load ea) s = .next (stage2Done s (s.pc + 1)) ∧ exec (.store ea) s = .next (stage2Done s (s.pc + 1)) ∧
      exec (.addm ea) s = .next (stage2Done s (s.pc + 1)) ∧ exec (.subm ea) s = .next (stage2Done s (s.pc + 1))) ∧
    (s.stage = .stage3 →
      exec (.load ea) s = .next (stage3Done s (loByte (s.mem.readWord ea)) s.pc s.mem) ∧
      exec (.store ea) s = .next (stage3Done s s.acc s.pc (s.mem.writeWord ea (Config.storeHi s.tick ++ s.acc))) ∧
      exec (.addm ea) s = .next (stage3Done s (s.acc + loByte (s.mem.readWord ea)) s.pc s.mem) ∧
      exec (.subm ea) s = .next (stage3Done s (s.acc - loByte (s.mem.readWord ea)) s.pc s.mem))

/-- R148: jumpu, jumpz and jumpnz complete in every stage: taken, PC holds in STAGE2 and is loaded in STAGE3; not taken, it is
incremented in STAGE2. -/
def Obligations.JumpsComplete : Prop :=
  ∀ (t : Addr) (s : State),
    (s.stage = .stage1 →
      exec (.jumpu t) s = .next (fetchDone s) ∧ exec (.jumpz t) s = .next (fetchDone s) ∧
      exec (.jumpnz t) s = .next (fetchDone s)) ∧
    (s.stage = .stage2 →
      exec (.jumpu t) s = .next (stage2Done s s.pc) ∧
      exec (.jumpz t) s = .next (stage2Done s (if s.acc = 0x00 then s.pc else s.pc + 1)) ∧
      exec (.jumpnz t) s = .next (stage2Done s (if s.acc ≠ 0x00 then s.pc else s.pc + 1))) ∧
    (s.stage = .stage3 →
      exec (.jumpu t) s = .next (stage3Done s s.acc t s.mem) ∧
      exec (.jumpz t) s = .next (stage3Done s s.acc (if s.acc = 0x00 then t else s.pc) s.mem) ∧
      exec (.jumpnz t) s = .next (stage3Done s s.acc (if s.acc ≠ 0x00 then t else s.pc) s.mem))

/-- R158: opcodes 11 to 15 complete in every stage: the fetch, the increment of PC, and nothing. -/
def Obligations.UndefinedOpcodesComplete : Prop :=
  ∀ (i : Instr) (s : State), IsUndefined i →
    (s.stage = .stage1 → exec i s = .next (fetchDone s)) ∧
    (s.stage = .stage2 → exec i s = .next (stage2Done s (s.pc + 1))) ∧
    (s.stage = .stage3 → exec i s = .next (stage3Done s s.acc s.pc s.mem))

/-! ### The instructions, over their whole cycle -/

/-- R130: `move #imm8` over its three steps. -/
def Obligations.MoveCycle : Prop :=
  ∀ (imm : Byte) (s : State), AtFetch (.move imm) s →
    steps 3 s = .next (cycleEnd s imm (s.pc + 1) s.mem) ∧
    (zeroFlag (cycleEnd s imm (s.pc + 1) s.mem).acc = true ↔ imm = 0)

/-- R131: `add #imm8` over its three steps. -/
def Obligations.AddCycle : Prop :=
  ∀ (imm : Byte) (s : State), AtFetch (.add imm) s → ∃ acc : Byte,
    steps 3 s = .next (cycleEnd s acc (s.pc + 1) s.mem) ∧
    acc.toNat = (s.acc.toNat + imm.toNat) % 256 ∧ (zeroFlag acc = true ↔ acc = 0)

/-- R132: `sub #imm8` over its three steps; Z afterwards exactly when ACC was the immediate. -/
def Obligations.SubCycle : Prop :=
  ∀ (imm : Byte) (s : State), AtFetch (.sub imm) s → ∃ acc : Byte,
    steps 3 s = .next (cycleEnd s acc (s.pc + 1) s.mem) ∧
    acc = s.acc + (~~~imm + 1) ∧ acc = s.acc - imm ∧ (zeroFlag acc = true ↔ s.acc = imm)

/-- R133: `and #imm8` over its three steps. -/
def Obligations.AndCycle : Prop :=
  ∀ (imm : Byte) (s : State), AtFetch (.and imm) s →
    steps 3 s = .next (cycleEnd s (s.acc &&& imm) (s.pc + 1) s.mem) ∧
    (zeroFlag (s.acc &&& imm) = true ↔ s.acc &&& imm = 0)

/-- R140: `load ea` over its three steps. -/
def Obligations.LoadCycle : Prop :=
  ∀ (ea : Addr) (s : State), AtFetch (.load ea) s →
    steps 3 s = .next (cycleEnd s (loByte (s.mem.readWord ea)) (s.pc + 1) s.mem) ∧
    (zeroFlag (loByte (s.mem.readWord ea)) = true ↔ loByte (s.mem.readWord ea) = 0)

/-- R141: `store ea` over its three steps: ACC is left alone, the word at `ea` becomes a free byte over ACC, every other word is as
before. It holds for every value of the free byte. -/
def Obligations.StoreCycle : Prop :=
  ∀ (ea : Addr) (s : State), AtFetch (.store ea) s → ∃ mem : Memory,
    steps 3 s = .next (cycleEnd s s.acc (s.pc + 1) mem) ∧
    mem = s.mem.writeWord ea (Config.storeHi (s.tick + 2) ++ s.acc) ∧
    (MemCanonical s → loByte (mem.readWord ea) = s.acc ∧ ∀ a : Addr, a ≠ ea → mem.readWord a = s.mem.readWord a)

/-- R142: `addm ea` over its three steps. -/
def Obligations.AddmCycle : Prop :=
  ∀ (ea : Addr) (s : State), AtFetch (.addm ea) s → ∃ acc : Byte,
    steps 3 s = .next (cycleEnd s acc (s.pc + 1) s.mem) ∧
    acc.toNat = (s.acc.toNat + (loByte (s.mem.readWord ea)).toNat) % 256 ∧ (zeroFlag acc = true ↔ acc = 0)

/-- R143: `subm ea` over its three steps; Z afterwards exactly when ACC was the low byte of the word. -/
def Obligations.SubmCycle : Prop :=
  ∀ (ea : Addr) (s : State), AtFetch (.subm ea) s → ∃ acc : Byte,
    steps 3 s = .next (cycleEnd s acc (s.pc + 1) s.mem) ∧
    acc = s.acc - loByte (s.mem.readWord ea) ∧ (zeroFlag acc = true ↔ s.acc = loByte (s.mem.readWord ea))

/-- R150: `jumpu t` over its three steps, PC holding its own address until the STAGE3 edge. -/
def Obligations.JumpuCycle : Prop :=
  ∀ (t : Addr) (s : State), AtFetch (.jumpu t) s →
    (∃ u, steps 2 s = .next u ∧ u.pc = s.pc) ∧ steps 3 s = .next (cycleEnd s s.acc t s.mem)

/-- R151: `jumpz t` over its three steps. -/
def Obligations.JumpzCycle : Prop :=
  ∀ (t : Addr) (s : State), AtFetch (.jumpz t) s → ∃ u, steps 2 s = .next u ∧
    (s.acc = 0x00 → u.pc = s.pc ∧ steps 3 s = .next (cycleEnd s s.acc t s.mem)) ∧
    (s.acc ≠ 0x00 → u.pc = s.pc + 1 ∧ steps 3 s = .next (cycleEnd s s.acc (s.pc + 1) s.mem))

/-- R152: `jumpnz t` over its three steps. -/
def Obligations.JumpnzCycle : Prop :=
  ∀ (t : Addr) (s : State), AtFetch (.jumpnz t) s → ∃ u, steps 2 s = .next u ∧
    (s.acc ≠ 0x00 → u.pc = s.pc ∧ steps 3 s = .next (cycleEnd s s.acc t s.mem)) ∧
    (s.acc = 0x00 → u.pc = s.pc + 1 ∧ steps 3 s = .next (cycleEnd s s.acc (s.pc + 1) s.mem))

/-- R158, R160 to R164: opcodes 11 to 15 over their three steps. -/
def Obligations.UndefinedOpcodeCycle : Prop :=
  ∀ (i : Instr) (s : State), IsUndefined i → AtFetch i s →
    (∃ u, steps 2 s = .next u ∧ u.pc = s.pc + 1) ∧ steps 3 s = .next (cycleEnd s s.acc (s.pc + 1) s.mem)

/-- R25: what PC holds after each of the three steps of any instruction. -/
def Obligations.PcDuringInstruction : Prop :=
  ∀ (i : Instr) (s : State), AtFetch i s → ∃ s1 s2 s3,
    step s = .next s1 ∧ step s1 = .next s2 ∧ step s2 = .next s3 ∧ s1.pc = s.pc ∧
    (Taken s.acc i → s2.pc = s.pc ∧ s3.pc = i.operand) ∧
    (¬Taken s.acc i → s2.pc = s.pc + 1 ∧ s3.pc = s.pc + 1)

/-- R111: from any STAGE1 state with no clear the next STAGE1 state is reached after exactly three steps. -/
def Obligations.CycleIsThreeSteps : Prop :=
  ∀ s : State, s.stage = .stage1 → s.clr = false → ∃ s1 s2 s3,
    step s = .next s1 ∧ step s1 = .next s2 ∧ step s2 = .next s3 ∧
    s1.stage ≠ .stage1 ∧ s2.stage ≠ .stage1 ∧ s3.stage = .stage1

/-! ### Frames -/

/-- R117, R128, R138: what move, add, sub, and, load, addm and subm leave unchanged. -/
def Obligations.AccInstructionsFrame : Prop :=
  ∀ (i : Instr) (s t : State), WritesAcc i → exec i s = .next t →
    SameBytes s t ∧ t.clr = s.clr ∧ (s.stage ≠ .stage1 → t.ir = s.ir) ∧ (s.stage ≠ .stage3 → t.acc = s.acc)

/-- R141, R49: what store leaves unchanged: every byte but the two of the word at `ea`, and in STAGE1 and STAGE2 those too. -/
def Obligations.StoreFrame : Prop :=
  ∀ (ea : Addr) (s t : State), MemCanonical s → exec (.store ea) s = .next t →
    t.acc = s.acc ∧ t.clr = s.clr ∧ (s.stage ≠ .stage1 → t.ir = s.ir) ∧ (s.stage ≠ .stage3 → SameBytes s t) ∧
    ∀ k : Nat, k ≠ Memory.loCell ea → k ≠ Memory.hiCell ea → t.mem.readByte k = s.mem.readByte k

/-- R148, R158: what the jumps and opcodes 11 to 15 leave unchanged. -/
def Obligations.JumpAndUndefinedFrame : Prop :=
  ∀ (i : Instr) (s t : State), ¬WritesAcc i → (∀ ea, i ≠ .store ea) → exec i s = .next t →
    SameBytes s t ∧ t.acc = s.acc ∧ t.clr = s.clr ∧ (s.stage ≠ .stage1 → t.ir = s.ir)

/-! ### Clear, reset and boot -/

/-- R191: the clear step. ACC, IR and the fate of a pending store are the free values of the step; the statement holds for every
value of them. -/
def Obligations.ClearStepEffect : Prop :=
  ∀ s t : State, s.clr = true → step s = .next t →
    t.stage = .stage1 ∧ t.pc = 0x00 ∧ t.acc = Config.accClr s.tick ∧ t.ir = Config.irClr s.tick ∧ t.clr = false ∧
    t.mem = if s.stage = .stage3 ∧ opcodeOf s.ir = 5 ∧ Config.clrWr s.tick = true
      then s.mem.writeWord (operandOf s.ir) (Config.storeHi s.tick ++ s.acc) else s.mem

/-- R192: from every state, `reset()` and the one step after it give PC 0x00 and STAGE1. -/
def Obligations.ResetProperty : Prop :=
  ∀ s : State, ∃ t, step (Driver.reset s) = .next t ∧ t.pc = 0x00 ∧ t.stage = .stage1

/-- R193: after the clear step the first step fetches M[0x00], and the first cycle is that of the instruction at 0x00. -/
def Obligations.EntryPoint : Prop :=
  ∀ s t : State, s.clr = true → step s = .next t →
    t.stage = .stage1 ∧ t.pc = 0x00 ∧ AtFetch (decode (t.mem.readWord 0x00)) t ∧
    ∃ u, step t = .next u ∧ u.ir = t.mem.readWord 0x00

/-- R194: a clear changes no word but the one a store pending in STAGE3 addresses, and that one is as before or has ACC in its
low byte. -/
def Obligations.ClearLeavesMemory : Prop :=
  ∀ s t : State, MemCanonical s → s.clr = true → step s = .next t → ∀ a : Addr,
    (s.stage = .stage3 ∧ opcodeOf s.ir = 5 ∧ a = operandOf s.ir →
      t.mem.readWord a = s.mem.readWord a ∨ loByte (t.mem.readWord a) = s.acc) ∧
    (¬(s.stage = .stage3 ∧ opcodeOf s.ir = 5 ∧ a = operandOf s.ir) → t.mem.readWord a = s.mem.readWord a)

/-- R33: the state after a clear is STAGE1 with PC 0x00. That every word of `State.reset` reads 0x0000 is no value the spec gives reset (a
clear leaves memory as it was but for a pending store): it is the model's choice of an image that lists nothing (log entry 6), whose unlisted words read 0x0000
(R53). ACC and IR of `State.reset` are the model's choice too (log entry 1) and no part of this statement. -/
def Obligations.ResetState : Prop :=
  State.reset.stage = .stage1 ∧ State.reset.pc = 0x00 ∧ ∀ a : Addr, State.reset.mem.readWord a = 0x0000

/-- R42: an image of other than 256 words is refused at construction, by its size. -/
def Obligations.BootRefusesOtherSizes : Prop :=
  ∀ image : List Word, image.length ≠ 256 → Driver.boot image = .refused (.memorySize image.length)

/-- R195: a 256-word image boots to STAGE1, PC 0x00, with the image in memory. That the memory is in canonical form (`MemCanonical`)
and no clear is pending are clauses about the model's own representation (log entries 5 and 2, the model's choices), not of R195. -/
def Obligations.BootHoldsImage : Prop :=
  ∀ image : List Word, image.length = 256 → ∃ s, Driver.boot image = .next s ∧ s.stage = .stage1 ∧ s.pc = 0x00 ∧
    s.clr = false ∧ MemCanonical s ∧ ∀ a : Addr, image[a.toNat]? = some (s.mem.readWord a)

/-! ### The whole machine -/

/-- The memory's canonical form is kept by every step. -/
def Obligations.StepKeepsMemoryCanonical : Prop :=
  ∀ s t : State, MemCanonical s → step s = .next t → MemCanonical t

/-- The memory's canonical form holds at reset. -/
def Obligations.ResetMemoryCanonical : Prop := MemCanonical State.reset

/-- R35: the number of clear-free steps since a STAGE1 state, modulo 3, fixes the stage. -/
def Obligations.StageCountsStepsModThree : Prop :=
  ∀ (n : Nat) (s : State), s.stage = .stage1 → s.clr = false →
    ∃ t, steps n s = .next t ∧ t.stage = stageAfter n ∧ t.clr = false

/-- R63: bits [11:8] have no effect on execution: states that differ at most in those bits of IR and of memory words step to
states that differ at most in them, WHEN THE DRAWS ARE EQUAL: the two states have one step count, so their steps take the same free values
(log entry 3, the model's choice of how a draw is indexed). -/
def Obligations.UnusedBitsHaveNoEffect : Prop :=
  ∀ s t : State, MemCanonical s → MemCanonical t → StatesSameButUnused s t →
    ∃ s' t', step s = .next s' ∧ step t = .next t' ∧ StatesSameButUnused s' t'

/-- R58: a store to the next instruction's word is seen by the very next fetch, and IR of the running store does not change. -/
def Obligations.StoreSeenByNextFetch : Prop :=
  ∀ s : State, MemCanonical s → AtFetch (.store (s.pc + 1)) s →
    (∃ u, steps 3 s = .next u ∧ u.ir = fetchWord s) ∧
    ∃ t, steps 4 s = .next t ∧ loByte t.ir = s.acc ∧ hiByte t.ir = Config.storeHi (s.tick + 2)

/-- R55, R197: what the instructions after a store read of the word it stored: `subm ea` right after it gives ACC 0x00, `addm ea` right
after it twice the stored ACC modulo 256, and `load ea` after a `move` that changed ACC gives the stored ACC back. -/
def Obligations.StoreThenLoad : Prop :=
  ∀ (ea : Addr) (s : State), MemCanonical s → AtFetch (.store ea) s → ea ≠ s.pc + 1 →
    (decode (s.mem.readWord (s.pc + 1)) = .subm ea →
      ∃ t, steps 6 s = .next t ∧ t.acc = 0x00 ∧ t.pc = s.pc + 2 ∧ t.stage = .stage1) ∧
    (decode (s.mem.readWord (s.pc + 1)) = .addm ea →
      ∃ t, steps 6 s = .next t ∧ t.acc.toNat = 2 * s.acc.toNat % 256 ∧ t.pc = s.pc + 2 ∧ t.stage = .stage1) ∧
    (∀ imm : Byte, decode (s.mem.readWord (s.pc + 1)) = .move imm → decode (s.mem.readWord (s.pc + 2)) = .load ea →
      ea ≠ s.pc + 2 →
      (∃ u, steps 6 s = .next u ∧ u.acc = imm) ∧
      ∃ t, steps 9 s = .next t ∧ t.acc = s.acc ∧ t.pc = s.pc + 3 ∧ t.stage = .stage1)

/-- R127: stepped on, the sentinel in IR executes as a no-op: PC is incremented, and the third step fetches the next address. -/
def Obligations.SentinelDoesNotHalt : Prop :=
  ∀ s : State, s.stage = .stage2 → s.clr = false → s.ir = 0xFFFF →
    steps 2 s = .next { s with pc := s.pc + 1, stage := .stage1, tick := s.tick + 2 } ∧
    steps 3 s = .next { s with ir := s.mem.readWord (s.pc + 1), pc := s.pc + 1, stage := .stage2, tick := s.tick + 3 }

/-- R126, R203: a run from a STAGE1 state ends after 3n + 1 steps, in STAGE2, with IR the sentinel and PC its address. -/
def Obligations.RunEndsAfterWholeCycles : Prop :=
  ∀ (fuel k : Nat) (s t : State), s.stage = .stage1 → s.clr = false → Driver.runToSentinel fuel s = some (k, t) →
    (∃ n, k = 3 * n + 1) ∧ t.stage = .stage2 ∧ t.ir = 0xFFFF ∧ t.mem.readWord t.pc = 0xFFFF

/-- R127, R150: a jumpu to its own address never ends a run, however many steps the host takes. -/
def Obligations.SelfJumpNeverEndsRun : Prop :=
  ∀ (fuel : Nat) (s : State), AtFetch (.jumpu s.pc) s → Driver.runToSentinel fuel s = none

/-- R6, entry 1 of 93: the cautious variant refuses the fetch of a word of opcode 11 to 15 and otherwise steps as the machine does. -/
def Obligations.RefuseVariant : Prop :=
  ∀ s : State,
    (s.clr = false ∧ s.stage = .stage1 ∧ 11 ≤ (opcodeOf (fetchWord s)).toNat →
      clockStep .refuse s = .refused (.undefinedOpcode (opcodeOf (fetchWord s)))) ∧
    (¬(s.clr = false ∧ s.stage = .stage1 ∧ 11 ≤ (opcodeOf (fetchWord s)).toNat) → clockStep .refuse s = step s)
end

