-- ==== Sys2Proof/Laws/Memory.lean ====
section
/-! SUPPORT. The laws of memory: what a read after a write gives, that every operation keeps the canonical form, and that a canonical memory is
determined by its reads. -/

namespace Sys2Proof.Laws

open Sys2Proof.Machine

/-! ### Bytes of a word -/

@[simp] theorem loByte_append (h l : Byte) : loByte (h ++ l) = l := by
  unfold loByte; exact BitVec.extractLsb'_append_eq_right

@[simp] theorem hiByte_append (h l : Byte) : hiByte (h ++ l) = h := by
  unfold hiByte; exact BitVec.extractLsb'_append_eq_left

theorem hi_append_lo (w : Word) : hiByte w ++ loByte w = w := by
  unfold hiByte loByte
  ext i hi
  simp only [BitVec.getElem_append, BitVec.getElem_extractLsb']
  split <;> simp_all [BitVec.getLsbD_eq_getElem]

theorem operandOf_eq_loByte (w : Word) : operandOf w = loByte w := rfl

theorem opcodeOf_eq_of_hiByte_eq {v w : Word} (h : hiByte v = hiByte w) : opcodeOf v = opcodeOf w := by
  have hv : ∀ x : Word, opcodeOf x = (hiByte x).extractLsb' 4 4 := fun x => by
    unfold opcodeOf hiByte
    ext i hi
    simp only [BitVec.getElem_extractLsb', BitVec.getLsbD_extractLsb']
    have : 4 + i < 8 := by omega
    simp [this, ← Nat.add_assoc]
  rw [hv, hv, h]

/-! ### Cells -/

/-- Below its lower bound a canonical memory lists nothing. -/
theorem readByte_below {m : Memory} {lo a : Nat} (hm : m.canonicalFrom lo = true) (ha : a < lo) :
    m.readByte a = Memory.unlisted := by
  cases m with
  | nil => rfl
  | cons c rest =>
    obtain ⟨k, v⟩ := c
    simp only [Memory.canonicalFrom, Bool.and_eq_true, decide_eq_true_eq] at hm
    have hak : a < k := by omega
    simp [Memory.readByte, hak]

/-- Reading a memory with one cell put in front. -/
theorem readByte_consCell {m : Memory} {a : Nat} (hm : m.canonicalFrom (a + 1) = true) (v : Byte) (b : Nat) :
    (Memory.consCell a v m).readByte b = if a = b then v else m.readByte b := by
  unfold Memory.consCell
  split
  · rename_i hv
    split
    · rw [readByte_below hm (by omega), hv]
    · rfl
  · rcases Nat.lt_trichotomy b a with h | h | h
    · simp [Memory.readByte, h, readByte_below hm (show b < a + 1 by omega), show ¬a = b by omega]
    · simp [Memory.readByte, h]
    · simp [Memory.readByte, show ¬b < a by omega, show ¬b = a by omega, show ¬a = b by omega]

theorem canonicalFrom_mono {m : Memory} {lo lo' : Nat} (h : lo' ≤ lo) (hm : m.canonicalFrom lo = true) :
    m.canonicalFrom lo' = true := by
  cases m with
  | nil => rfl
  | cons c rest =>
    obtain ⟨k, v⟩ := c
    simp only [Memory.canonicalFrom, Bool.and_eq_true, decide_eq_true_eq] at hm ⊢
    exact ⟨⟨⟨by omega, hm.1.1.2⟩, hm.1.2⟩, hm.2⟩

theorem canonicalFrom_consCell {m : Memory} {lo a : Nat} {v : Byte} (hlo : lo ≤ a) (ha : a < Memory.cells)
    (hm : m.canonicalFrom (a + 1) = true) : (Memory.consCell a v m).canonicalFrom lo = true := by
  unfold Memory.consCell
  split
  · exact canonicalFrom_mono (by omega) hm
  · simp_all [Memory.canonicalFrom]

theorem canonicalFrom_writeByte {m : Memory} {lo a : Nat} {v : Byte} (hlo : lo ≤ a) (ha : a < Memory.cells)
    (hm : m.canonicalFrom lo = true) : (m.writeByte a v).canonicalFrom lo = true := by
  induction m generalizing lo with
  | nil => exact canonicalFrom_consCell hlo ha rfl
  | cons c rest ih =>
    obtain ⟨k, u⟩ := c
    have hm' := hm
    simp only [Memory.canonicalFrom, Bool.and_eq_true, decide_eq_true_eq] at hm'
    obtain ⟨⟨⟨hk, hkc⟩, hu⟩, hrest⟩ := hm'
    unfold Memory.writeByte
    split
    · rename_i hak
      refine canonicalFrom_consCell hlo ha ?_
      simp only [Memory.canonicalFrom, Bool.and_eq_true, decide_eq_true_eq]
      exact ⟨⟨⟨by omega, hkc⟩, hu⟩, hrest⟩
    · split
      · rename_i _ hak
        exact canonicalFrom_consCell hlo ha (hak ▸ hrest)
      · simp only [Memory.canonicalFrom, Bool.and_eq_true, decide_eq_true_eq]
        exact ⟨⟨⟨hk, hkc⟩, hu⟩, ih (by omega) hrest⟩

/-- Reading a cell after writing a cell of a canonical memory. -/
theorem readByte_writeByte {m : Memory} {lo : Nat} (hm : m.canonicalFrom lo = true) (a : Nat) (v : Byte) (b : Nat) :
    (m.writeByte a v).readByte b = if a = b then v else m.readByte b := by
  induction m generalizing lo with
  | nil => exact readByte_consCell rfl v b
  | cons c rest ih =>
    obtain ⟨k, u⟩ := c
    have hm' := hm
    simp only [Memory.canonicalFrom, Bool.and_eq_true, decide_eq_true_eq] at hm'
    obtain ⟨⟨⟨-, hkc⟩, hu⟩, hrest⟩ := hm'
    unfold Memory.writeByte
    split
    · rename_i hak
      refine readByte_consCell ?_ v b
      simp only [Memory.canonicalFrom, Bool.and_eq_true, decide_eq_true_eq]
      exact ⟨⟨⟨by omega, hkc⟩, hu⟩, hrest⟩
    · split
      · rename_i _ hak
        subst hak
        rw [readByte_consCell hrest]
        split
        · rfl
        · rename_i hab
          by_cases hlt : b < a
          · simp [Memory.readByte, hlt, readByte_below hrest (show b < a + 1 by omega)]
          · simp [Memory.readByte, hlt, show ¬b = a by omega]
      · simp only [Memory.readByte, ih hrest]
        by_cases hlt : b < k
        · simp [hlt, show ¬a = b by omega]
        · by_cases hbk : b = k
          · simp [hbk, show ¬a = k by omega]
          · simp [hlt, hbk]

/-! ### Words -/

theorem loCell_lt (a : Addr) : Memory.loCell a < Memory.cells := by
  have := a.isLt; unfold Memory.loCell Memory.cells; omega

theorem hiCell_lt (a : Addr) : Memory.hiCell a < Memory.cells := by
  have := a.isLt; unfold Memory.hiCell Memory.cells; omega

/-- The memory-read byte is the low byte of the word read. -/
@[simp] theorem loByte_readWord (m : Memory) (a : Addr) : loByte (m.readWord a) = m.readLow a := loByte_append _ _

/-- Writing a word as its two bytes is writing the word. -/
theorem writeBytes_eq_writeWord (m : Memory) (a : Addr) (hi lo : Byte) : m.writeBytes a hi lo = m.writeWord a (hi ++ lo) := by
  simp [Memory.writeWord]

/-- Writing a word keeps the canonical form. -/
theorem wf_writeWord {m : Memory} (hm : m.wf = true) (a : Addr) (w : Word) : (m.writeWord a w).wf = true :=
  canonicalFrom_writeByte (Nat.zero_le _) (hiCell_lt a) (canonicalFrom_writeByte (Nat.zero_le _) (loCell_lt a) hm)

/-- Reading a cell after writing a word: the word's two bytes, and every other cell as before. -/
theorem readByte_writeWord {m : Memory} (hm : m.wf = true) (a : Addr) (w : Word) (b : Nat) :
    (m.writeWord a w).readByte b =
      if b = Memory.hiCell a then hiByte w else if b = Memory.loCell a then loByte w else m.readByte b := by
  unfold Memory.writeWord Memory.writeBytes
  rw [readByte_writeByte (canonicalFrom_writeByte (Nat.zero_le _) (loCell_lt a) hm), readByte_writeByte hm]
  simp only [eq_comm]

/-- A read after a write to the same word gives the word written. -/
theorem readWord_writeWord_same {m : Memory} (hm : m.wf = true) (a : Addr) (w : Word) :
    (m.writeWord a w).readWord a = w := by
  have h : Memory.loCell a ≠ Memory.hiCell a := by unfold Memory.loCell Memory.hiCell; omega
  simp only [Memory.readWord, readByte_writeWord hm, if_true, if_neg h]
  exact hi_append_lo w

/-- A read of a word after a write to another gives what it gave before. -/
theorem readWord_writeWord_other {m : Memory} (hm : m.wf = true) {a b : Addr} (hab : a ≠ b) (w : Word) :
    (m.writeWord a w).readWord b = m.readWord b := by
  have h : a.toNat ≠ b.toNat := fun e => hab (BitVec.eq_of_toNat_eq e)
  have h1 : Memory.hiCell b ≠ Memory.hiCell a := by unfold Memory.hiCell; omega
  have h2 : Memory.hiCell b ≠ Memory.loCell a := by unfold Memory.hiCell Memory.loCell; omega
  have h3 : Memory.loCell b ≠ Memory.hiCell a := by unfold Memory.hiCell Memory.loCell; omega
  have h4 : Memory.loCell b ≠ Memory.loCell a := by unfold Memory.loCell; omega
  simp only [Memory.readWord, readByte_writeWord hm, if_neg h1, if_neg h2, if_neg h3, if_neg h4]

/-! ### Images -/

/-- An image that fits the array is canonical. -/
theorem canonicalFrom_ofWordsFrom (ws : List Word) (a : Nat) (h : a + ws.length ≤ 256) :
    (Memory.ofWordsFrom a ws).canonicalFrom (2 * a) = true := by
  induction ws generalizing a with
  | nil => rfl
  | cons w ws ih =>
    simp only [List.length_cons] at h
    have hrest := ih (a + 1) (by omega)
    have hcells : Memory.cells = 512 := rfl
    exact canonicalFrom_consCell le_rfl (by omega) (canonicalFrom_consCell le_rfl (by omega) hrest)

/-- The first listed cell of a canonical memory reads as its value, which is not the unlisted one. -/
theorem readByte_head (k : Nat) (v : Byte) (rest : Memory) : Memory.readByte ((k, v) :: rest) k = v := by
  simp [Memory.readByte]

theorem readByte_tail {k a : Nat} {v : Byte} {rest : Memory} (hr : Memory.canonicalFrom (k + 1) rest = true) (h : a ≠ k) :
    Memory.readByte ((k, v) :: rest) a = rest.readByte a := by
  by_cases hlt : a < k
  · simp [Memory.readByte, hlt, readByte_below hr (show a < k + 1 by omega)]
  · simp [Memory.readByte, hlt, h]

/-- A canonical memory is determined by what its cells read as. -/
theorem canonical_ext {m n : Memory} {lo : Nat} (hm : m.canonicalFrom lo = true) (hn : n.canonicalFrom lo = true)
    (h : ∀ a, m.readByte a = n.readByte a) : m = n := by
  induction m generalizing n lo with
  | nil =>
    cases n with
    | nil => rfl
    | cons d rest =>
      obtain ⟨k, v⟩ := d
      have e := h k
      rw [readByte_head] at e
      simp_all [Memory.canonicalFrom, Memory.readByte]
  | cons c rest ih =>
    obtain ⟨k, v⟩ := c
    cases n with
    | nil =>
      have e := h k
      rw [readByte_head] at e
      simp_all [Memory.canonicalFrom, Memory.readByte]
    | cons d rest' =>
      obtain ⟨j, u⟩ := d
      have hm' := hm
      have hn' := hn
      simp only [Memory.canonicalFrom, Bool.and_eq_true, decide_eq_true_eq, bne_iff_ne, ne_eq] at hm' hn'
      obtain ⟨⟨⟨-, -⟩, hv⟩, hr⟩ := hm'
      obtain ⟨⟨⟨-, -⟩, hu⟩, hr'⟩ := hn'
      have hkj : k = j := by
        rcases Nat.lt_trichotomy k j with hlt | heq | hgt
        · have e := h k
          rw [readByte_head, readByte_tail hr' (by omega)] at e
          exact absurd (e.trans (readByte_below hr' (by omega))) hv
        · exact heq
        · have e := h j
          rw [readByte_head, readByte_tail hr (by omega)] at e
          exact absurd (e.symm.trans (readByte_below hr (by omega))) hu
      subst hkj
      have hvu : v = u := by simpa [readByte_head] using h k
      subst hvu
      have : rest = rest' := ih hr hr' fun a => by
        by_cases hka : a = k
        · subst hka; rw [readByte_below hr (by omega), readByte_below hr' (by omega)]
        · simpa [readByte_tail hr hka, readByte_tail hr' hka] using h a
      rw [this]

end Sys2Proof.Laws
end

