-- ==== Sys2Proof/Laws/State.lean ====
section
/-! SUPPORT. One lemma per field per update of State that is no plain data computation: what the edge, the clear step, the host's reset and
placing a word leave in each field. -/

namespace Sys2Proof.Laws

open Sys2Proof.Machine

/-! ### The edge -/

@[simp] theorem edge_stage (op : BitVec 4) (imm : Byte) (s : State) : (edge op imm s).stage = s.stage.next := rfl
@[simp] theorem edge_clr (op : BitVec 4) (imm : Byte) (s : State) : (edge op imm s).clr = s.clr := rfl
@[simp] theorem edge_tick (op : BitVec 4) (imm : Byte) (s : State) : (edge op imm s).tick = s.tick + 1 := rfl

/-! ### The clear step -/

@[simp] theorem clearEdge_ir (s : State) : (clearEdge s).ir = Config.irClr s.tick := rfl
@[simp] theorem clearEdge_acc (s : State) : (clearEdge s).acc = Config.accClr s.tick := rfl
@[simp] theorem clearEdge_pc (s : State) : (clearEdge s).pc = 0x00 := rfl
@[simp] theorem clearEdge_stage (s : State) : (clearEdge s).stage = .stage1 := rfl
@[simp] theorem clearEdge_clr (s : State) : (clearEdge s).clr = false := rfl
@[simp] theorem clearEdge_tick (s : State) : (clearEdge s).tick = s.tick + 1 := rfl

/-! ### The host's reset() call -/

@[simp] theorem driverReset_ir (s : State) : (Driver.reset s).ir = s.ir := rfl
@[simp] theorem driverReset_acc (s : State) : (Driver.reset s).acc = s.acc := rfl
@[simp] theorem driverReset_pc (s : State) : (Driver.reset s).pc = s.pc := rfl
@[simp] theorem driverReset_stage (s : State) : (Driver.reset s).stage = s.stage := rfl
@[simp] theorem driverReset_mem (s : State) : (Driver.reset s).mem = s.mem := rfl
@[simp] theorem driverReset_clr (s : State) : (Driver.reset s).clr = true := rfl
@[simp] theorem driverReset_tick (s : State) : (Driver.reset s).tick = s.tick := rfl

/-! ### Placing a word where the next fetch reads -/

@[simp] theorem placeWord_ir (s : State) (w : Word) : (placeWord s w).ir = s.ir := rfl
@[simp] theorem placeWord_acc (s : State) (w : Word) : (placeWord s w).acc = s.acc := rfl
@[simp] theorem placeWord_pc (s : State) (w : Word) : (placeWord s w).pc = s.pc := rfl
@[simp] theorem placeWord_stage (s : State) (w : Word) : (placeWord s w).stage = .stage1 := rfl
@[simp] theorem placeWord_mem (s : State) (w : Word) : (placeWord s w).mem = s.mem.writeWord s.pc w := rfl
@[simp] theorem placeWord_clr (s : State) (w : Word) : (placeWord s w).clr = false := rfl
@[simp] theorem placeWord_tick (s : State) (w : Word) : (placeWord s w).tick = s.tick := rfl

/-! ### The state after reset -/

@[simp] theorem reset_pc : State.reset.pc = 0x00 := rfl
@[simp] theorem reset_stage : State.reset.stage = .stage1 := rfl
@[simp] theorem reset_mem : State.reset.mem = [] := rfl
@[simp] theorem reset_clr : State.reset.clr = false := rfl

end Sys2Proof.Laws
end

