-- ==== Sys2Proof/Laws/Edge.lean ====
section
/-! SUPPORT. What the datapath's edge does in each stage, said once: the control-line formulas evaluated (41_sequencer.md R107, R108). -/

namespace Sys2Proof.Laws

open Sys2Proof.Machine

/-- The STAGE1 edge loads IR with the word at PC and changes nothing else, for every opcode (41_sequencer.md R108). -/
theorem edge_stage1 (op : BitVec 4) (imm : Byte) {s : State} (h : s.stage = .stage1) :
    edge op imm s = { s with ir := s.mem.readWord s.pc, stage := .stage2, tick := s.tick + 1 } := by
  simp [edge, storeCommit, readData, addressOf, addressMux, linesOf, lines, h, registerNext, pcNext, Stage.next]

/-- The STAGE2 edge increments PC unless PC_LD holds, and changes nothing else (41_sequencer.md R101, R107). -/
theorem edge_stage2 (op : BitVec 4) (imm : Byte) {s : State} (h : s.stage = .stage2) :
    edge op imm s =
      { s with pc := if pcLoad op (zeroFlag s.acc) then s.pc else s.pc + 1, stage := .stage3, tick := s.tick + 1 } := by
  cases hp : pcLoad op (zeroFlag s.acc) <;>
    simp [edge, storeCommit, linesOf, lines, h, hp, registerNext, pcNext, pcData, Stage.next]

/-! ### The lines a STAGE3 step reads, by opcode -/

theorem accEn_stage3 : ∀ (op : BitVec 4) (z : Bool),
    (lines .stage3 op z).accEn = decide (op.toNat ∈ [0, 1, 2, 3, 4, 6, 7]) := by decide

theorem dataSel_stage3 : ∀ (op : BitVec 4) (z : Bool), (lines .stage3 op z).dataSel = decide (op.toNat ∈ [4, 6, 7]) := by decide

theorem addrSel_stage3 : ∀ (op : BitVec 4) (z : Bool), (lines .stage3 op z).addrSel = decide (op.toNat ∈ [4, 5, 6, 7]) := by decide

theorem accCtl_stage3 : ∀ (op : BitVec 4) (z : Bool),
    (lines .stage3 op z).accCtl = if op.toNat ∈ [0, 4] then 0b100 else if op.toNat = 3 then 0b010
      else if op.toNat ∈ [2, 7] then 0b001 else 0b000 := by decide

/-- The ALU output of a STAGE3 step: B is the low byte of the word at the operand for opcodes 4, 6, 7, else the operand
(43_datapath.md R122; 41_sequencer.md R107). -/
theorem aluOut_stage3 {op : BitVec 4} {imm : Byte} {s : State} (h : s.stage = .stage3) :
    aluOut op imm s =
      alu s.acc (if op.toNat ∈ [4, 6, 7] then s.mem.readLow imm else imm)
        (linesOf op s).accCtl := by
  unfold aluOut readDataByte addressOf linesOf operandB addressMux
  rw [h, dataSel_stage3, addrSel_stage3]
  by_cases hop : op.toNat ∈ [4, 6, 7]
  · have hmem : op.toNat ∈ [4, 5, 6, 7] := by
      simp only [List.mem_cons, List.not_mem_nil, or_false] at hop ⊢; omega
    simp only [hop, hmem, decide_true, if_true]
  · simp only [hop, decide_false, Bool.false_eq_true, if_false]

/-- A write that commits writes the data-out word at the step's address. -/
theorem storeCommit_eq (commits : Bool) (op : BitVec 4) (imm : Byte) (s : State) :
    storeCommit commits op imm s = if commits then s.mem.writeWord (addressOf op imm s) (dataOut s) else s.mem := by
  unfold storeCommit dataOut; rw [writeBytes_eq_writeWord]

/-! ### The edge, stage by stage -/

/-- The STAGE3 edge loads PC if PC_LD holds, writes ACC if the opcode enables it and memory if it is a store (41_sequencer.md R99 to
R102, R107). -/
theorem edge_stage3 (op : BitVec 4) (imm : Byte) {s : State} (h : s.stage = .stage3) :
    edge op imm s =
      { s with
        acc := if (linesOf op s).accEn then aluOut op imm s else s.acc
        pc := if pcLoad op (zeroFlag s.acc) then imm else s.pc
        mem := if op = 5 then s.mem.writeWord imm (dataOut s) else s.mem
        stage := .stage1, tick := s.tick + 1 } := by
  have hw : (linesOf op s).ramWr = decide (op = 5) := by
    simp [linesOf, lines, h, decodeLine, beq_eq_decide]
  have ha : op = 5 → addressOf op imm s = imm := by
    intro e; subst e; simp [addressOf, addressMux, linesOf, lines, h, memOp, decodeLine]
  cases hp : pcLoad op (zeroFlag s.acc) <;> by_cases h5 : op = 5 <;>
    simp_all [edge, storeCommit_eq, registerNext, pcNext, pcData, Stage.next] <;>
    simp_all [linesOf, lines]

end Sys2Proof.Laws
end

