-- ==== Sys2Proof/Laws/Exec.lean ====
section
/-! SUPPORT. What `exec`, `clockStep` and `step` can do, said once: every instruction is the datapath's edge for its opcode and operand; a
step is the clear step or that edge; no step is refused. -/

namespace Sys2Proof.Laws

open Sys2Proof.Machine

/-- Every arm of `exec` is the datapath's edge for the instruction's opcode and operand (43_datapath.md R122). -/
theorem exec_eq_edge (i : Instr) (s : State) : exec i s = .next (edge i.opcode i.operand s) := by
  cases i <;> rfl

/-- The opcode and operand of a decoded word are its fields (30_encoding.md R69). -/
theorem opcode_ofOpcode (op : BitVec 4) (imm : Byte) : (ofOpcode op imm).opcode = op := by
  revert op; decide +revert

theorem operand_ofOpcode (op : BitVec 4) (imm : Byte) : (ofOpcode op imm).operand = imm := by
  unfold ofOpcode; split <;> rfl

@[simp] theorem opcode_decode (w : Word) : (decode w).opcode = opcodeOf w := opcode_ofOpcode _ _

@[simp] theorem operand_decode (w : Word) : (decode w).operand = operandOf w := operand_ofOpcode _ _

/-- The step with the clear input high is the clear step (70_reset_and_hazards.md R191). -/
theorem step_clear {s : State} (h : s.clr = true) : step s = .next (clearEdge s) := by
  simp [step, clockStep, h]

/-- The step with the clear input low is the edge for the fields of IR (43_datapath.md R122). -/
theorem step_edge {s : State} (h : s.clr = false) : step s = .next (edge (opcodeOf s.ir) (operandOf s.ir) s) := by
  simp [step, clockStep, h, refusesFetch, Config.undefOp, exec_eq_edge]

/-- What a step can do: the clear step, or the edge (43_datapath.md R122; 70_reset_and_hazards.md R191). -/
theorem step_cases {s t : State} (h : step s = .next t) :
    (s.clr = true ∧ t = clearEdge s) ∨ (s.clr = false ∧ t = edge (opcodeOf s.ir) (operandOf s.ir) s) := by
  cases hc : s.clr with
  | true => rw [step_clear hc] at h; exact .inl ⟨rfl, by injection h with h; exact h.symm⟩
  | false => rw [step_edge hc] at h; exact .inr ⟨rfl, by injection h with h; exact h.symm⟩

end Sys2Proof.Laws
end

