-- ==== Sys2Proof/Laws/PerInstr.lean ====
section
/-! SUPPORT. Statements made per instruction: the family `Fields` says that an instruction's word carries its opcode in bits [15:12], its
operand in bits [7:0] and zero in bits [11:8] (30_encoding.md R61, R69). -/

namespace Sys2Proof.Laws.Fields

/-- The fields of an instruction's word (30_encoding.md R61, R69). -/
def Statement (i : Instr) : Prop :=
  opcodeOf (encode i) = i.opcode ∧ operandOf (encode i) = i.operand ∧ unusedOf (encode i) = 0

/-- The fields of a word built from an opcode and an operand. -/
theorem encodeFields_fields (op : BitVec 4) (imm : Byte) :
    opcodeOf (encodeFields op imm) = op ∧ operandOf (encodeFields op imm) = imm ∧ unusedOf (encodeFields op imm) = 0 := by
  unfold encodeFields opcodeOf operandOf unusedOf
  refine ⟨?_, ?_, ?_⟩ <;> apply BitVec.eq_of_getLsbD_eq <;> intro i hi <;>
    simp only [BitVec.getLsbD_extractLsb', BitVec.getLsbD_or, BitVec.getLsbD_shiftLeft, BitVec.getLsbD_setWidth] <;>
    interval_cases i <;> simp

theorem move (imm : Byte) : Statement (.move imm) := encodeFields_fields _ _
theorem add (imm : Byte) : Statement (.add imm) := encodeFields_fields _ _
theorem sub (imm : Byte) : Statement (.sub imm) := encodeFields_fields _ _
theorem and (imm : Byte) : Statement (.and imm) := encodeFields_fields _ _
theorem load (ea : Byte) : Statement (.load ea) := encodeFields_fields _ _
theorem store (ea : Byte) : Statement (.store ea) := encodeFields_fields _ _
theorem addm (ea : Byte) : Statement (.addm ea) := encodeFields_fields _ _
theorem subm (ea : Byte) : Statement (.subm ea) := encodeFields_fields _ _
theorem jumpu (t : Byte) : Statement (.jumpu t) := encodeFields_fields _ _
theorem jumpz (t : Byte) : Statement (.jumpz t) := encodeFields_fields _ _
theorem jumpnz (t : Byte) : Statement (.jumpnz t) := encodeFields_fields _ _
theorem undef11 (unused : Byte) : Statement (.undef11 unused) := encodeFields_fields _ _
theorem undef12 (unused : Byte) : Statement (.undef12 unused) := encodeFields_fields _ _
theorem undef13 (unused : Byte) : Statement (.undef13 unused) := encodeFields_fields _ _
theorem undef14 (unused : Byte) : Statement (.undef14 unused) := encodeFields_fields _ _
theorem undef15 (unused : Byte) : Statement (.undef15 unused) := encodeFields_fields _ _

end Sys2Proof.Laws.Fields
end

