-- ==== Sys2Proof/Laws/Steps.lean ====
section
/-! SUPPORT. Runs of several steps: taking the first step of a run, and the three steps of an instruction cycle said once. -/

namespace Sys2Proof.Laws

open Sys2Proof.Machine Sys2Proof.Safety

theorem run_succ (M : Host.Core) {s t : M.State} (h : M.step s = .next t) (n : Nat) : M.run (n + 1) s = M.run n t := by
  rw [Host.Core.run, h]

theorem steps_zero (s : State) : steps 0 s = .next s := rfl

/-- The first step of a run. -/
theorem steps_succ {s t : State} (h : step s = .next t) (n : Nat) : steps (n + 1) s = steps n t :=
  run_succ Sys2Proof.core h n

/-- The fetch step (41_sequencer.md R108). -/
theorem step_stage1 {s : State} (h : s.stage = .stage1) (hc : s.clr = false) : step s = .next (fetchDone s) := by
  rw [step_edge hc, edge_stage1 _ _ h]; rfl

/-- The STAGE2 step (41_sequencer.md R101). -/
theorem step_stage2 {s : State} (h : s.stage = .stage2) (hc : s.clr = false) :
    step s = .next (stage2Done s (if pcLoad (opcodeOf s.ir) (zeroFlag s.acc) then s.pc else s.pc + 1)) := by
  rw [step_edge hc, edge_stage2 _ _ h]; rfl

/-- The three steps of an instruction's cycle: the fetch, STAGE2, and the datapath's edge of STAGE3 (41_sequencer.md R110, R111). -/
theorem cycle_steps {i : Instr} {s : State} (h : AtFetch i s) :
    ∃ s2, step s = .next (fetchDone s) ∧ step (fetchDone s) = .next s2 ∧
      s2 = stage2Done (fetchDone s) (if pcLoad i.opcode (zeroFlag s.acc) then s.pc else s.pc + 1) ∧
      step s2 = .next (edge i.opcode i.operand s2) := by
  obtain ⟨h1, hc, rfl⟩ := h
  refine ⟨_, step_stage1 h1 hc, step_stage2 rfl hc, by rw [opcode_decode]; rfl, ?_⟩
  rw [step_edge (by exact hc), opcode_decode, operand_decode]
  rfl

end Sys2Proof.Laws
end

