-- ==== Sys2Proof/Tests/Slice0.lean ====
section
/-! SUPPORT. The model's own tests: words and vectors taken from spec/ (30_encoding.md; 95_test_vectors.md), a smoke test of each check, and a
witness for the hypotheses of each statement. -/

namespace Sys2Proof.Tests

open Sys2Proof.Machine Sys2Proof.Safety Sys2Proof.Laws

/-! ### Helpers: small states, and the next state of an outcome -/

/-- STAGE1 at `pc`, the word there, the rest of memory 0x0000, IR 0x1234 (95_test_vectors.md section 5). -/
def at1 (pc : Addr) (w : Word) (acc : Byte) : State :=
  { ir := 0x1234, acc := acc, pc := pc, stage := .stage1, mem := Memory.writeWord [] pc w, clr := false, tick := 0 }

/-- STAGE2 with IR loaded. -/
def at2 (pc : Addr) (w : Word) (acc : Byte) : State := { at1 pc w acc with ir := w, stage := .stage2 }

/-- STAGE3 with IR loaded and one word of memory listed. -/
def at3 (pc : Addr) (w : Word) (acc : Byte) (a : Addr := 0) (v : Word := 0) : State :=
  { at1 pc w acc with ir := w, stage := .stage3, mem := Memory.writeWord [] a v }

/-- A field of the next state. -/
def nextField {α : Type} (f : State → α) : Host.Outcome State Fault Refusal → Option α
  | .next t => some (f t)
  | .fault _ => none
  | .refused _ => none

/-! ### Decoding: one word a constructor, written out from 30_encoding.md R61 and R64 (examples of R130 to R164) -/

theorem test_decode_move : decode 0b0000000000000100 = .move 0x04 := by decide
theorem test_decode_move_unused_bits : decode 0b0000111100000100 = .move 0x04 := by decide
theorem test_decode_add : decode 0b0001000000000001 = .add 0x01 := by decide
theorem test_decode_sub : decode 0b0010000000000001 = .sub 0x01 := by decide
theorem test_decode_and : decode 0b0011000000001111 = .and 0x0F := by decide
theorem test_decode_load : decode 0b0100000000100000 = .load 0x20 := by decide
theorem test_decode_store : decode 0b0101000011111111 = .store 0xFF := by decide
theorem test_decode_addm : decode 0b0110000011111111 = .addm 0xFF := by decide
theorem test_decode_subm : decode 0b0111000000100001 = .subm 0x21 := by decide
theorem test_decode_jumpu : decode 0b1000000000000110 = .jumpu 0x06 := by decide
theorem test_decode_jumpz : decode 0b1001000000000101 = .jumpz 0x05 := by decide
theorem test_decode_jumpnz : decode 0b1010000000000001 = .jumpnz 0x01 := by decide
theorem test_decode_undef11 : decode 0b1011000011111111 = .undef11 0xFF := by decide
theorem test_decode_undef12 : decode 0b1100000000000000 = .undef12 0x00 := by decide
theorem test_decode_undef13 : decode 0b1101000100100011 = .undef13 0x23 := by decide
theorem test_decode_undef14 : decode 0b1110000011111111 = .undef14 0xFF := by decide
theorem test_decode_undef15 : decode 0b1111111111111111 = .undef15 0xFF := by decide
theorem test_decode_table_word : decodeTableWord 16 0xA001 = some (.jumpnz 0x01) := by decide
theorem test_decode_table_word_too_wide : decodeTableWord 16 0x10000 = none := by decide

/-! ### Encoding: the examples of 30_encoding.md R73 -/

theorem test_encode_examples :
    encode (.move 4) = 0x0004 ∧ encode (.store 0xFF) = 0x50FF ∧ encode (.addm 0xFF) = 0x60FF ∧ encode (.add 1) = 0x1001 ∧
    encode (.jumpnz 1) = 0xA001 := by decide

/-! ### Well-formedness: an ill-formed term for each check -/

theorem test_wf_operand_out_of_range : WellFormed.stmt [] (.instr .move (.num 256)) = false := by decide
theorem test_wf_label_in_immediate : WellFormed.stmt [['a']] (.instr .move (.label ['a'])) = false := by decide
theorem test_wf_undefined_label : WellFormed.stmt [['a']] (.instr .jumpu (.label ['b'])) = false := by decide
theorem test_wf_word_out_of_range : WellFormed.stmt [] (.word 65536) = false := by decide
theorem test_wf_listing_address : WellFormed.listing [(256, 0)] = false := by decide
theorem test_wf_listing_twice : WellFormed.listing [(1, 0), (2, 0), (1, 5)] = false := by decide
theorem test_wf_image_too_small : WellFormed.image (List.replicate 255 0) = false := by
  unfold WellFormed.image; rw [List.length_replicate]; rfl
theorem test_wf_image_too_large : WellFormed.image (List.replicate 257 0) = false := by
  unfold WellFormed.image; rw [List.length_replicate]; rfl
theorem test_memory_not_canonical :
    Memory.wf [(3, 1), (2, 1)] = false ∧ Memory.wf [(3, 0)] = false ∧ Memory.wf [(512, 1)] = false := by decide

/-! ### ALU (95_test_vectors.md section 2) and control lines (section 3) -/

theorem test_alu_row_A5_0F :
    alu 0xA5 0x0F 0b000 = 0xB4 ∧ alu 0xA5 0x0F 0b001 = 0x96 ∧ alu 0xA5 0x0F 0b010 = 0x05 ∧ alu 0xA5 0x0F 0b011 = 0x05 ∧
    alu 0xA5 0x0F 0b100 = 0x0F ∧ alu 0xA5 0x0F 0b101 = 0x0F ∧ alu 0xA5 0x0F 0b110 = 0x0F ∧ alu 0xA5 0x0F 0b111 = 0x0F := by
  decide
theorem test_alu_subtract_zero : alu 0x00 0x00 0b001 = 0x00 := by decide
theorem test_lines_store_stage3 : lines .stage3 5 false =
    { irEn := false, romEn := false, ramEn := true, addrSel := true, dataSel := false, ramWr := true, pcLd := false,
      pcEn := false, accEn := false, accCtl := 0b000 } := by decide
theorem test_lines_jumpz_stage1 : lines .stage1 9 true =
    { irEn := true, romEn := true, ramEn := false, addrSel := false, dataSel := false, ramWr := false, pcLd := true,
      pcEn := false, accEn := false, accCtl := 0b000 } := by decide
theorem test_lines_subm_stage3 : lines .stage3 7 true =
    { irEn := false, romEn := false, ramEn := true, addrSel := true, dataSel := true, ramWr := false, pcLd := false,
      pcEn := false, accEn := true, accCtl := 0b001 } := by decide

/-! ### The instructions, one step each (95_test_vectors.md sections 4 and 5) -/

theorem test_move : nextField (·.acc) (exec (.move 0x04) (at3 0x01 0x0004 0x5A)) = some 0x04 := by decide
theorem test_move_pc_wraps : nextField (·.pc) (exec (.move 0xFF) (at2 0xFF 0x00FF 0x00)) = some 0x00 := by decide
theorem test_add_wraps : nextField (·.acc) (exec (.add 0x01) (at3 0x01 0x1001 0xFF)) = some 0x00 := by decide
theorem test_add_pc_in_stage2 : nextField (·.pc) (exec (.add 0x01) (at2 0x00 0x1001 0x05)) = some 0x01 := by decide
theorem test_sub_borrow_wraps : nextField (·.acc) (exec (.sub 0x01) (at3 0x01 0x2001 0x00)) = some 0xFF := by decide
theorem test_sub_zero : nextField (·.acc) (exec (.sub 0x00) (at3 0x01 0x2000 0x42)) = some 0x42 := by decide
theorem test_and : nextField (·.acc) (exec (.and 0x0F) (at3 0x01 0x300F 0xFE)) = some 0x0E := by decide
theorem test_and_disjoint : nextField (·.acc) (exec (.and 0x55) (at3 0x01 0x3055 0xAA)) = some 0x00 := by decide
theorem test_load_low_byte : nextField (·.acc) (exec (.load 0x20) (at3 0x01 0x4020 0x77 0x20 0xAB05)) = some 0x05 := by decide
theorem test_load_top_address : nextField (·.acc) (exec (.load 0xFF) (at3 0x01 0x40FF 0x01 0xFF 0x1200)) = some 0x00 := by decide
theorem test_store_low_byte :
    nextField (fun t => t.mem.readByte (Memory.loCell 0xFF)) (exec (.store 0xFF) (at3 0x02 0x50FF 0x04)) = some 0x04 := by decide
theorem test_store_keeps_acc : nextField (·.acc) (exec (.store 0x01) (at3 0x02 0x5001 0x99)) = some 0x99 := by decide
theorem test_addm_wraps : nextField (·.acc) (exec (.addm 0x10) (at3 0x01 0x6010 0xFF 0x10 0x0001)) = some 0x00 := by decide
theorem test_addm_low_byte_only : nextField (·.acc) (exec (.addm 0x10) (at3 0x01 0x6010 0x10 0x10 0xFF00)) = some 0x10 := by decide
theorem test_subm_borrow : nextField (·.acc) (exec (.subm 0x21) (at3 0x02 0x7021 0x05 0x21 0x0007)) = some 0xFE := by decide
theorem test_subm_equal : nextField (·.acc) (exec (.subm 0x21) (at3 0x02 0x7021 0x07 0x21 0x0007)) = some 0x00 := by decide
theorem test_jumpu_holds_in_stage2 : nextField (·.pc) (exec (.jumpu 0x06) (at2 0x04 0x8006 0x00)) = some 0x04 := by decide
theorem test_jumpu_loads_in_stage3 : nextField (·.pc) (exec (.jumpu 0x06) (at3 0x04 0x8006 0x00)) = some 0x06 := by decide
theorem test_jumpz_taken_loads : nextField (·.pc) (exec (.jumpz 0x05) (at3 0x02 0x9005 0x00)) = some 0x05 := by decide
theorem test_jumpz_not_taken_increments : nextField (·.pc) (exec (.jumpz 0x05) (at2 0x02 0x9005 0xFE)) = some 0x03 := by decide
theorem test_jumpnz_taken_loads : nextField (·.pc) (exec (.jumpnz 0x01) (at3 0x02 0xA001 0x02)) = some 0x01 := by decide
theorem test_jumpnz_not_taken_increments : nextField (·.pc) (exec (.jumpnz 0x01) (at2 0x02 0xA001 0x00)) = some 0x03 := by decide
theorem test_undef11_pc : nextField (·.pc) (exec (.undef11 0xFF) (at2 0x10 0xB0FF 0x12)) = some 0x11 := by decide
theorem test_undef11_keeps_acc : nextField (·.acc) (exec (.undef11 0xFF) (at3 0x11 0xB0FF 0x12)) = some 0x12 := by decide
theorem test_undef12_pc : nextField (·.pc) (exec (.undef12 0x00) (at2 0xFF 0xC000 0x00)) = some 0x00 := by decide
theorem test_undef12_keeps_acc : nextField (·.acc) (exec (.undef12 0x00) (at3 0x00 0xC000 0x00)) = some 0x00 := by decide
theorem test_undef13_pc : nextField (·.pc) (exec (.undef13 0x23) (at2 0x05 0xD123 0x80)) = some 0x06 := by decide
theorem test_undef13_keeps_acc : nextField (·.acc) (exec (.undef13 0x23) (at3 0x06 0xD123 0x80)) = some 0x80 := by decide
theorem test_undef14_pc : nextField (·.pc) (exec (.undef14 0xFF) (at2 0x07 0xE0FF 0x01)) = some 0x08 := by decide
theorem test_undef14_keeps_acc : nextField (·.acc) (exec (.undef14 0xFF) (at3 0x08 0xE0FF 0x01)) = some 0x01 := by decide
theorem test_undef15_pc : nextField (·.pc) (exec (.undef15 0xFF) (at2 0x06 0xFFFF 0x06)) = some 0x07 := by decide
theorem test_undef15_keeps_acc : nextField (·.acc) (exec (.undef15 0xFF) (at3 0x07 0xFFFF 0x06)) = some 0x06 := by decide

/-! ### The step, the clear step and placing a word -/

theorem test_step_fetches : nextField (·.ir) (step (at1 0x05 0x1001 0x07)) = some 0x1001 := by decide
theorem test_step_runs_ir : nextField (·.acc) (step (at3 0x01 0x1001 0x05)) = some 0x06 := by decide
-- 95_test_vectors.md 6.2 and 6.3
theorem test_clear_in_stage2 : nextField (·.pc) (step (Driver.reset (at2 0x05 0x1001 0x07))) = some 0x00 := by decide
theorem test_clear_in_stage3_of_jump : nextField (·.pc) (step (Driver.reset (at3 0x04 0x8006 0x00))) = some 0x00 := by decide
-- 95_test_vectors.md 6.6
theorem test_clear_in_stage2_of_store :
    nextField (fun t => t.mem.readWord 0xFF) (step (Driver.reset (at2 0x01 0x50FF 0x04))) = some 0x0000 := by decide
theorem test_placed_word_fetched : nextField (·.ir) (step (State.reset.withFetchWord 16 0x60FF)) = some 0x60FF := by decide

/-! ### Loader and assembler (30_encoding.md R70 to R74) -/

theorem test_loader_example_line : loadLine "1 0101000011111111".toList = .ok (1, 0x50FF) := by decide
theorem test_loader_address_range : loadLine "256 0101000011111111".toList = .error .addressRange := by decide
theorem test_loader_not_binary : loadLine "1 0101000011111112".toList = .error .notBinary := by decide
theorem test_loader_length : loadLine "1 010100001111111".toList = .error .dataLength := by decide
theorem test_loader_twice :
    loadImage ["1 0101000011111111".toList, "1 0000000000000000".toList] = .error .duplicateAddress := by decide
-- the listing style of 95_test_vectors.md P2
theorem test_assemble_lines :
    assemble ["0x00: move #3   ; start".toList, "0x01: loop: sub #1".toList, "jumpnz loop".toList, "store 0x10".toList, "halt".toList]
      = .ok [(0, 0x0003), (1, 0x2001), (2, 0xA001), (3, 0x5010), (4, 0xFFFF)] := by decide
/-- The model's choice of log entry 9: spaces around the marks, or none. -/
theorem test_assemble_spacing : assemble ["loop : sub # 1".toList, "move#3".toList] = .ok [(0, 0x2001), (1, 0x0003)] := by decide
theorem test_assemble_out_of_range : assemble ["move #256".toList] = .error .badOperand := by decide
theorem test_assemble_undefined_label : assemble ["jumpu nowhere".toList] = .error .badOperand := by decide
theorem test_assemble_malformed : assemble ["move 3".toList] = .error .malformedLine := by decide

/-! ### Witnesses: for each statement with hypotheses, a state and operands that meet them -/

theorem witness_decode_undefined : 11 ≤ ((0xB0FF : Word).extractLsb' 12 4).toNat := by decide
theorem witness_one_hot_undefined : 11 ≤ (11 : BitVec 4).toNat ∧ 11 ≤ (15 : BitVec 4).toNat := by decide
theorem witness_assembled_operand_range : (255 : Nat) < 256 := by decide
theorem witness_loaded_listing : loadLines ["1 0101000011111111".toList] = .ok [(1, 0x50FF)] ∧ WellFormed.listing [(1, 0x50FF)] = true ∧
    (1, 0x50FF) ∈ [(1, (0x50FF : Word))] ∧ (∀ w, (255, w) ∉ [(1, (0x50FF : Word))]) := ⟨by decide, by decide, by decide, by simp⟩
theorem witness_loaded_listing_twice : loadLines ["1 0101000011111111".toList, "1 0101000011111111".toList] = .ok [(1, 0x50FF), (1, 0x50FF)] ∧
    WellFormed.listing [(1, 0x50FF), (1, 0x50FF)] = false := by decide
theorem witness_fetch_stage : (at1 0xFF 0x1001 0x07).stage = .stage1 ∧ (at1 0xFF 0x1001 0x07).clr = false := by decide
theorem witness_late_stages_and_reads : Stage.stage2 ≠ .stage1 ∧ (lines .stage2 4 false).dataSel = true ∧ Stage.stage3 ≠ .stage1 ∧
    (lines .stage3 7 true).dataSel = true := by decide
theorem witness_clear_free_stage1 : (at1 0x00 0x1001 0x07).clr = false ∧ (at1 0x00 0x1001 0x07).stage = .stage1 := by decide
theorem witness_clear_free_stage2 : (at2 0xFF 0x1001 0x07).clr = false ∧ (at2 0xFF 0x1001 0x07).stage = .stage2 := by decide
theorem witness_clear_free_stage3 : (at3 0x01 0x50FF 0x07).clr = false ∧ (at3 0x01 0x50FF 0x07).stage = .stage3 := by decide
theorem witness_placed_word : MemCanonical (at1 0xFF 0xFFFF 0x00) ∧ 0xFFFF < 2 ^ 16 := ⟨by unfold MemCanonical; decide, by decide⟩
/-- A step from each stage with no clear, and a clear step: the premises `step s = .next t` of the whole-machine statements. -/
theorem witness_steps : (∃ t, step (at1 0xFF 0x1001 0x07) = .next t) ∧ (∃ t, step (at2 0xFF 0x8006 0x07) = .next t) ∧
    (∃ t, step (at3 0x01 0x50FF 0x07) = .next t) ∧ ∃ t, step (Driver.reset (at3 0x01 0x50FF 0x07)) = .next t :=
  ⟨⟨_, step_edge rfl⟩, ⟨_, step_edge rfl⟩, ⟨_, step_edge rfl⟩, ⟨_, step_clear rfl⟩⟩
theorem witness_acc_commit : (at3 0x01 0x7021 0x07).stage = .stage3 ∧ (opcodeOf (at3 0x01 0x7021 0x07).ir).toNat ∈ [0, 1, 2, 3, 4, 6, 7] := by decide
theorem witness_pc_taken : Taken (at3 0x02 0x9000 0x00).acc (decode (at3 0x02 0x9000 0x00).ir) := by
  rw [show decode (at3 0x02 0x9000 0x00).ir = .jumpz 0x00 by decide]; rfl
theorem witness_pc_not_taken : ¬Taken (at2 0xFF 0xA0FF 0x00).acc (decode (at2 0xFF 0xA0FF 0x00).ir) := by
  rw [show decode (at2 0xFF 0xA0FF 0x00).ir = .jumpnz 0xFF by decide]; exact fun h => h rfl
theorem witness_store_commit : (at3 0x01 0x50FF 0x07).stage = .stage3 ∧ opcodeOf (at3 0x01 0x50FF 0x07).ir = 5 ∧
    ¬(opcodeOf (at3 0x01 0x40FF 0x07).ir = 5) := by decide
theorem witness_ports_write : (Driver.ports (at3 0x01 0x50FF 0x07)).ramWr = true ∧ (Driver.ports (at2 0x01 0x50FF 0x07)).ramWr = false := by decide
theorem witness_one_word_written : Memory.wf [(0, 1), (511, 2)] = true := by decide
/-- The three stage premises of the completion statements, and the undefined opcodes at both ends. -/
theorem witness_completion : (at1 0xFF 0x0004 0x5A).stage = .stage1 ∧ (at2 0xFF 0x0004 0x5A).stage = .stage2 ∧
    (at3 0x00 0x0004 0x5A).stage = .stage3 ∧ IsUndefined (.undef11 0x00) ∧ IsUndefined (.undef15 0xFF) :=
  ⟨rfl, rfl, rfl, trivial, trivial⟩
theorem witness_fetch_move : AtFetch (.move 0x04) (at1 0x00 0x0004 0x5A) := ⟨rfl, rfl, by decide⟩
theorem witness_fetch_add : AtFetch (.add 0x01) (at1 0x00 0x1001 0xFF) := ⟨rfl, rfl, by decide⟩
theorem witness_fetch_sub : AtFetch (.sub 0x42) (at1 0x00 0x2042 0x42) := ⟨rfl, rfl, by decide⟩
theorem witness_fetch_and : AtFetch (.and 0x55) (at1 0x00 0x3055 0xAA) := ⟨rfl, rfl, by decide⟩
theorem witness_fetch_load : AtFetch (.load 0x05) (at1 0x05 0x4005 0x77) := ⟨rfl, rfl, by decide⟩
theorem witness_fetch_store : AtFetch (.store 0xFF) (at1 0x01 0x50FF 0x04) := ⟨rfl, rfl, by decide⟩
theorem witness_fetch_addm : AtFetch (.addm 0x03) (at1 0x03 0x6003 0x00) := ⟨rfl, rfl, by decide⟩
theorem witness_fetch_subm : AtFetch (.subm 0x21) (at1 0x01 0x7021 0x05) := ⟨rfl, rfl, by decide⟩
theorem witness_fetch_jumpu : AtFetch (.jumpu 0x06) (at1 0x04 0x8006 0x00) := ⟨rfl, rfl, by decide⟩
theorem witness_fetch_jumpz_taken : AtFetch (.jumpz 0x00) (at1 0xFF 0x9000 0x00) := ⟨rfl, rfl, by decide⟩
theorem witness_fetch_jumpz_not_taken : AtFetch (.jumpz 0x00) (at1 0xFF 0x9000 0x01) := ⟨rfl, rfl, by decide⟩
theorem witness_fetch_jumpnz_taken : AtFetch (.jumpnz 0x01) (at1 0x02 0xA001 0x02) := ⟨rfl, rfl, by decide⟩
theorem witness_fetch_jumpnz_not_taken : AtFetch (.jumpnz 0xFF) (at1 0xFF 0xA0FF 0x00) := ⟨rfl, rfl, by decide⟩
theorem witness_fetch_undef11 : AtFetch (.undef11 0xFF) (at1 0x10 0xB0FF 0x12) := ⟨rfl, rfl, by decide⟩
theorem witness_fetch_undef15 : AtFetch (.undef15 0xFF) (at1 0x06 0xFFFF 0x06) := ⟨rfl, rfl, by decide⟩
theorem witness_store_canonical : MemCanonical (at1 0x01 0x50FF 0x04) ∧ (0xFE : Addr) ≠ 0xFF := ⟨by unfold MemCanonical; decide, by decide⟩
theorem witness_pc_during_taken : Taken (at1 0x04 0x8006 0x00).acc (.jumpu 0x06) ∧ ¬Taken (at1 0x00 0x0004 0x00).acc (.move 0x04) := ⟨trivial, id⟩
theorem witness_acc_frame : WritesAcc (.subm 0x21) ∧ ∃ t, exec (.subm 0x21) (at3 0x02 0x7021 0x05) = .next t :=
  ⟨trivial, _, rfl⟩
theorem witness_store_frame : MemCanonical (at3 0x02 0x50FF 0x04) ∧ (∃ t, exec (.store 0xFF) (at3 0x02 0x50FF 0x04) = .next t) ∧
    0 ≠ Memory.loCell 0xFF ∧ 0 ≠ Memory.hiCell 0xFF := ⟨by unfold MemCanonical; decide, ⟨_, rfl⟩, by decide, by decide⟩
theorem witness_jump_frame : ¬WritesAcc (.jumpz 0x05) ∧ (∀ ea, Instr.jumpz 0x05 ≠ .store ea) ∧
    ∃ t, exec (.jumpz 0x05) (at3 0x02 0x9005 0x00) = .next t := ⟨id, fun _ => by simp, _, rfl⟩
theorem witness_clear : (Driver.reset (at3 0x02 0x50FF 0x04)).clr = true ∧ MemCanonical (Driver.reset (at3 0x02 0x50FF 0x04)) ∧
    (Driver.reset (at3 0x02 0x50FF 0x04)).stage = .stage3 ∧ opcodeOf (Driver.reset (at3 0x02 0x50FF 0x04)).ir = 5 ∧
    (0xFF : Addr) = operandOf (Driver.reset (at3 0x02 0x50FF 0x04)).ir ∧
    (0x00 : Addr) ≠ operandOf (Driver.reset (at3 0x02 0x50FF 0x04)).ir :=
  ⟨rfl, by unfold MemCanonical; decide, rfl, by decide, by decide, by decide⟩
theorem witness_boot_size : (List.replicate 256 (0x0000 : Word)).length = 256 ∧ (List.replicate 255 (0x0000 : Word)).length ≠ 256 :=
  ⟨List.length_replicate, by rw [List.length_replicate]; decide⟩
theorem witness_canonical_step : MemCanonical (at3 0x01 0x50FF 0x07) ∧ ∃ t, step (at3 0x01 0x50FF 0x07) = .next t :=
  ⟨by unfold MemCanonical; decide, _, step_edge rfl⟩
/-- Two states that differ in bits [11:8] of the word at PC and of IR. -/
theorem witness_unused_bits : MemCanonical { at1 0x00 0x0004 0x33 with ir := 0x1234 } ∧
    MemCanonical { at1 0x00 0x0F04 0x33 with ir := 0x1734 } ∧
    StatesSameButUnused { at1 0x00 0x0004 0x33 with ir := 0x1234 } { at1 0x00 0x0F04 0x33 with ir := 0x1734 } := by
  refine ⟨by unfold MemCanonical; decide, by unfold MemCanonical; decide, ⟨by decide, by decide⟩, rfl, rfl, rfl, rfl, rfl, fun a => ?_⟩
  have h : ∀ a : Addr, opcodeOf (Memory.readWord (at1 0x00 0x0004 0x33).mem a) = opcodeOf (Memory.readWord (at1 0x00 0x0F04 0x33).mem a) ∧
      operandOf (Memory.readWord (at1 0x00 0x0004 0x33).mem a) = operandOf (Memory.readWord (at1 0x00 0x0F04 0x33).mem a) := by decide
  exact h a
theorem witness_store_to_next : MemCanonical (at1 0xFF 0x5000 0x99) ∧ AtFetch (.store ((at1 0xFF 0x5000 0x99).pc + 1)) (at1 0xFF 0x5000 0x99) :=
  ⟨by unfold MemCanonical; decide, rfl, rfl, by decide⟩
/-- ACC 0x99, `store ea` at 0xFE, and two words after it at 0xFF and 0x00. -/
def afterStore (ea : Byte) (v w : Word) : State :=
  { at1 0xFE 0 0x99 with mem := ((Memory.writeWord [] 0xFE (encode (.store ea))).writeWord 0xFF v).writeWord 0x00 w }
theorem witness_store_then_subm : MemCanonical (afterStore 0x10 0x7010 0) ∧ AtFetch (.store 0x10) (afterStore 0x10 0x7010 0) ∧
    (0x10 : Addr) ≠ (afterStore 0x10 0x7010 0).pc + 1 ∧ decode ((afterStore 0x10 0x7010 0).mem.readWord ((afterStore 0x10 0x7010 0).pc + 1)) = .subm 0x10 :=
  ⟨by unfold MemCanonical; decide, ⟨rfl, rfl, by decide⟩, by decide, by decide⟩
/-- The stored word is the store's own. -/
theorem witness_store_then_addm : MemCanonical (afterStore 0xFE 0x60FE 0) ∧ AtFetch (.store 0xFE) (afterStore 0xFE 0x60FE 0) ∧
    (0xFE : Addr) ≠ (afterStore 0xFE 0x60FE 0).pc + 1 ∧ decode ((afterStore 0xFE 0x60FE 0).mem.readWord ((afterStore 0xFE 0x60FE 0).pc + 1)) = .addm 0xFE :=
  ⟨by unfold MemCanonical; decide, ⟨rfl, rfl, by decide⟩, by decide, by decide⟩
theorem witness_store_then_load : MemCanonical (afterStore 0x01 0x0005 0x4001) ∧ AtFetch (.store 0x01) (afterStore 0x01 0x0005 0x4001) ∧
    (0x01 : Addr) ≠ (afterStore 0x01 0x0005 0x4001).pc + 1 ∧
    decode ((afterStore 0x01 0x0005 0x4001).mem.readWord ((afterStore 0x01 0x0005 0x4001).pc + 1)) = .move 0x05 ∧
    decode ((afterStore 0x01 0x0005 0x4001).mem.readWord ((afterStore 0x01 0x0005 0x4001).pc + 2)) = .load 0x01 ∧
    (0x01 : Addr) ≠ (afterStore 0x01 0x0005 0x4001).pc + 2 :=
  ⟨by unfold MemCanonical; decide, ⟨rfl, rfl, by decide⟩, by decide, by decide, by decide, by decide⟩
theorem witness_sentinel : (at2 0xFF 0xFFFF 0x06).stage = .stage2 ∧ (at2 0xFF 0xFFFF 0x06).clr = false ∧
    (at2 0xFF 0xFFFF 0x06).ir = 0xFFFF := by decide
theorem witness_run : (at1 0x06 0xFFFF 0x06).stage = .stage1 ∧ (at1 0x06 0xFFFF 0x06).clr = false ∧
    (Driver.runToSentinel 1 (at1 0x06 0xFFFF 0x06)).map (·.1) = some 1 := by decide
theorem witness_self_jump : AtFetch (.jumpu (at1 0x04 0x8004 0x11).pc) (at1 0x04 0x8004 0x11) := ⟨rfl, rfl, by decide⟩
theorem witness_refuse_variant : (at1 0x10 0xB0FF 0x12).clr = false ∧ (at1 0x10 0xB0FF 0x12).stage = .stage1 ∧
    11 ≤ (opcodeOf (fetchWord (at1 0x10 0xB0FF 0x12))).toNat ∧
    ¬11 ≤ (opcodeOf (fetchWord (at1 0x10 0xA0FF 0x12))).toNat := by decide

end Sys2Proof.Tests
end

section
/-! The memory port of a step: the address it presents and the one step that writes (20_memory.md R43, R46). -/

namespace Sys2Proof.Proofs

open Sys2Proof.Machine Sys2Proof.Laws

/-- ADDR_SEL in every stage (41_sequencer.md R97). -/
theorem addrSel_eq_decide (stage : Stage) (op : BitVec 4) (z : Bool) :
    (lines stage op z).addrSel = decide (stage ≠ .stage1 ∧ op.toNat ∈ [4, 5, 6, 7]) := by
  cases stage with
  | stage1 => simp [lines]
  | stage2 =>
    have same : (lines .stage2 op z).addrSel = (lines .stage3 op z).addrSel := rfl
    simp [same, addrSel_stage3]
  | stage3 => simp [addrSel_stage3]

/-- The address of a step, for any opcode and operand fields (20_memory.md R43). -/
theorem addressOf_eq_ite (op : BitVec 4) (imm : Byte) (s : State) :
    addressOf op imm s = if s.stage ≠ .stage1 ∧ op.toNat ∈ [4, 5, 6, 7] then imm else s.pc := by
  simp only [addressOf, addressMux, linesOf, addrSel_eq_decide, decide_eq_true_eq]

/-- Memory after the edge, in every stage and for every opcode (20_memory.md R46; 41_sequencer.md R99). -/
theorem edge_mem_eq_ite (op : BitVec 4) (imm : Byte) (s : State) :
    (edge op imm s).mem = if s.stage = .stage3 ∧ op = 5 then s.mem.writeWord imm (dataOut s) else s.mem := by
  cases h : s.stage with
  | stage1 => simp [edge_stage1 op imm h]
  | stage2 => simp [edge_stage2 op imm h]
  | stage3 => simp [edge_stage3 op imm h]

/-- Settles O19: a clear-free step is the edge, and the edge's memory is known in every stage. -/
theorem onlyStoreWritesMemory : Obligations.OnlyStoreWritesMemory := by
  intro s t hclr hstep
  have hmem : t.mem = if s.stage = .stage3 ∧ opcodeOf s.ir = 5
      then s.mem.writeWord (operandOf s.ir) (dataOut s) else s.mem := by
    obtain ⟨hset, -⟩ | ⟨-, rfl⟩ := step_cases hstep
    · simp [hclr] at hset
    · exact edge_mem_eq_ite _ _ s
  exact ⟨fun hstore => hmem.trans (if_pos hstore), fun hother => hmem.trans (if_neg hother)⟩

/-- Settles O20: the port carries the step's address for the fields of IR. -/
theorem addressMultiplexer : Obligations.AddressMultiplexer :=
  fun s => addressOf_eq_ite (opcodeOf s.ir) (operandOf s.ir) s

end Sys2Proof.Proofs
end

section
/-! The one-hot decode: no decode line of the opcodes 0 to 10 is asserted for an undefined opcode, so no control line has a term of
one (30_encoding.md R65; 41_sequencer.md R93 to R105). -/

namespace Sys2Proof.Proofs

open Sys2Proof.Machine

/-- The decode line of `k` is asserted for the opcode `k` alone (41_sequencer.md R92). -/
theorem decodeLine_eq_true_iff (op k : BitVec 4) : decodeLine op k = true ↔ op = k := beq_iff_eq

theorem decodeLine_eq_false_of_undefined {op k : BitVec 4} (hop : 11 ≤ op.toNat) (hk : k.toNat < 11) :
    decodeLine op k = false := by
  have hne : op ≠ k := by rintro rfl; omega
  exact beq_eq_false_iff_ne.mpr hne

theorem subTerm_eq_false_of_undefined {op : BitVec 4} (hop : 11 ≤ op.toNat) : subTerm op = false := by
  simp [subTerm, decodeLine_eq_false_of_undefined hop]

theorem memOp_eq_false_of_undefined {op : BitVec 4} (hop : 11 ≤ op.toNat) : memOp op = false := by
  simp [memOp, subTerm_eq_false_of_undefined hop, decodeLine_eq_false_of_undefined hop]

theorem pcLoad_eq_false_of_undefined {op : BitVec 4} (hop : 11 ≤ op.toNat) (z : Bool) : pcLoad op z = false := by
  simp [pcLoad, decodeLine_eq_false_of_undefined hop]

/-- The lines of an undefined opcode are the fetch's and the increment of PC, in every stage (30_encoding.md R65; 41_sequencer.md
R107). -/
theorem lines_of_undefined {op : BitVec 4} (hop : 11 ≤ op.toNat) (stage : Stage) (z : Bool) :
    lines stage op z =
      { irEn := stage == .stage1, romEn := stage == .stage1, ramEn := false, addrSel := false, dataSel := false,
        ramWr := false, pcLd := false, pcEn := stage == .stage2, accEn := false, accCtl := 0b000 } := by
  simp [lines, subTerm_eq_false_of_undefined hop, memOp_eq_false_of_undefined hop, pcLoad_eq_false_of_undefined hop,
    decodeLine_eq_false_of_undefined hop]

/-- Settles O3: a decode line is an equality test, and the terms of `lines` vanish for an undefined opcode. -/
theorem oneHotDecode : Obligations.OneHotDecode :=
  ⟨decodeLine_eq_true_iff, fun stage z _ hop => lines_of_undefined hop stage z⟩

end Sys2Proof.Proofs
end

section
/-! The ALU: the adder in each mode, and the result for each value of the selector CTL[2:1] (40_alu.md R81, R82). -/

namespace Sys2Proof.Proofs

open Sys2Proof.Machine

@[simp] theorem addsub_false (a b : Byte) : addsub a b false = a + b := rfl

/-- The two's-complement formula is the difference (40_alu.md R81). -/
@[simp] theorem addsub_true (a b : Byte) : addsub a b true = a - b := by
  calc addsub a b true = a + (~~~b + 1) := rfl
    _ = a + -b := by rw [BitVec.neg_eq_not_add b]; rfl
    _ = a - b := (BitVec.sub_eq_add_neg a b).symm

theorem alu_of_selector_zero (a b : Byte) {ctl : BitVec 3} (h : ctl.extractLsb' 1 2 = 0) :
    alu a b ctl = addsub a b (ctl.getLsbD 0) := by simp [alu, h]

theorem alu_of_selector_one (a b : Byte) {ctl : BitVec 3} (h : ctl.extractLsb' 1 2 = 1) :
    alu a b ctl = a &&& b := by simp [alu, h]

theorem alu_of_selector_two_or_three (a b : Byte) {ctl : BitVec 3}
    (h : ctl.extractLsb' 1 2 = 2 ∨ ctl.extractLsb' 1 2 = 3) : alu a b ctl = b := by
  obtain h | h := h
  · simp [alu, h]
  · simp [alu, h]

/-- Settles O6: each value of CTL by its selector, and the subtraction by the adder's formula and as the difference. -/
theorem aluTruthTable : Obligations.AluTruthTable := by
  intro a b
  have hadd : alu a b 0b000 = addsub a b false := alu_of_selector_zero a b rfl
  have hsub : alu a b 0b001 = addsub a b true := alu_of_selector_zero a b rfl
  exact ⟨hsub, hadd.trans (addsub_false a b), hsub.trans (addsub_true a b),
    alu_of_selector_one a b rfl, alu_of_selector_one a b rfl,
    alu_of_selector_two_or_three a b (.inl rfl), alu_of_selector_two_or_three a b (.inl rfl),
    alu_of_selector_two_or_three a b (.inr rfl), alu_of_selector_two_or_three a b (.inr rfl)⟩

end Sys2Proof.Proofs
end

section
/-! The sequencer: the stage after every step, and the length of an instruction's cycle (41_sequencer.md R90, R111). -/

namespace Sys2Proof.Proofs

open Sys2Proof.Machine Sys2Proof.Safety Sys2Proof.Laws

/-- A step moves the stage once round its cycle, unless the clear forces STAGE1 (41_sequencer.md R90). -/
theorem stage_of_step {s t : State} (h : step s = .next t) : t.stage = if s.clr then .stage1 else s.stage.next := by
  obtain ⟨hclr, rfl⟩ | ⟨hclr, rfl⟩ := step_cases h
  · rw [hclr, if_pos rfl, clearEdge_stage]
  · rw [hclr, if_neg Bool.false_ne_true, edge_stage]

/-- Settles O15: the clear decides between STAGE1 and the successor of the stage before. -/
theorem stageTransitions : Obligations.StageTransitions := by
  intro s t hstep
  have hstage := stage_of_step hstep
  refine ⟨fun hclr => by simpa [hclr] using hstage, fun hclr => ?_⟩
  have hnext : t.stage = s.stage.next := by simpa [hclr] using hstage
  exact ⟨fun h => hnext.trans (congrArg Stage.next h), fun h => hnext.trans (congrArg Stage.next h),
    fun h => hnext.trans (congrArg Stage.next h)⟩

/-- Settles O40: the three steps of the cycle of whatever instruction is fetched end in STAGE2, STAGE3 and STAGE1. -/
theorem cycleIsThreeSteps : Obligations.CycleIsThreeSteps := by
  intro s hs hclr
  have hfetch : AtFetch (decode (fetchWord s)) s := ⟨hs, hclr, rfl⟩
  obtain ⟨s2, step1, step2, hs2, step3⟩ := cycle_steps hfetch
  have stage_one : (fetchDone s).stage = .stage2 := rfl
  have stage_two : s2.stage = .stage3 := by rw [hs2]; rfl
  refine ⟨fetchDone s, s2, _, step1, step2, step3, by simp [stage_one], by simp [stage_two], ?_⟩
  exact (edge_stage _ _ s2).trans (congrArg Stage.next stage_two)

end Sys2Proof.Proofs
end

section
/-! The registers of a clear-free step: what the edge leaves in IR, ACC and PC, in every stage and for every opcode
(42_register_file.md R116 to R119). -/

namespace Sys2Proof.Proofs

open Sys2Proof.Machine Sys2Proof.Safety Sys2Proof.Laws

/-- The next state of a clear-free step (43_datapath.md R122). -/
theorem eq_edge_of_step {s t : State} (hclr : s.clr = false) (h : step s = .next t) :
    t = edge (opcodeOf s.ir) (operandOf s.ir) s :=
  Host.Outcome.next.inj (h.symm.trans (step_edge hclr))

/-! ### IR -/

theorem edge_ir_eq_ite (op : BitVec 4) (imm : Byte) (s : State) :
    (edge op imm s).ir = if s.stage = .stage1 then s.mem.readWord s.pc else s.ir := by
  cases h : s.stage with
  | stage1 => simp [edge_stage1 op imm h]
  | stage2 => simp [edge_stage2 op imm h]
  | stage3 => simp [edge_stage3 op imm h]

/-- Settles O16: the edge's IR, split on the stage. -/
theorem irLoadsOnlyInFetch : Obligations.IrLoadsOnlyInFetch := by
  intro s t hclr hstep
  have hir := edge_ir_eq_ite (opcodeOf s.ir) (operandOf s.ir) s
  rw [← eq_edge_of_step hclr hstep] at hir
  exact ⟨fun hfetch => hir.trans (if_pos hfetch), fun hlater => hir.trans (if_neg hlater)⟩

/-! ### ACC -/

/-- ACC after the edge; only in STAGE3 can ACC_EN be asserted (41_sequencer.md R102). -/
theorem edge_acc_eq_ite (op : BitVec 4) (imm : Byte) (s : State) :
    (edge op imm s).acc =
      if s.stage = .stage3 ∧ op.toNat ∈ [0, 1, 2, 3, 4, 6, 7] then aluOut op imm s else s.acc := by
  cases h : s.stage with
  | stage1 => simp [edge_stage1 op imm h]
  | stage2 => simp [edge_stage2 op imm h]
  | stage3 =>
    have haccEn : (linesOf op s).accEn = decide (op.toNat ∈ [0, 1, 2, 3, 4, 6, 7]) := by
      rw [linesOf, h, accEn_stage3]
    simp only [edge_stage3 op imm h, haccEn, decide_eq_true_eq, true_and]

/-- Settles O17: where ACC is written at all the stage is STAGE3, and there B and ACC_CTL are known by opcode. -/
theorem accWrittenOnlyAtCommit : Obligations.AccWrittenOnlyAtCommit := by
  intro s t hclr hstep
  rw [eq_edge_of_step hclr hstep, edge_acc_eq_ite]
  split
  next hcommit =>
    obtain ⟨hstage, -⟩ := hcommit
    rw [aluOut_stage3 hstage, linesOf, hstage, accCtl_stage3, loByte_readWord]
  next => rfl

/-! ### PC -/

/-- PC_LD is asserted exactly for the instructions that take their jump (41_sequencer.md R100). -/
theorem pcLoad_eq_true_iff_taken (i : Instr) (acc : Byte) :
    pcLoad i.opcode (zeroFlag acc) = true ↔ Taken acc i := by
  cases i with
  | jumpu => exact iff_of_true rfl trivial
  | jumpz => simp [pcLoad, decodeLine, Instr.opcode, zeroFlag, Taken]
  | jumpnz => simp [pcLoad, decodeLine, Instr.opcode, zeroFlag, Taken]
  | _ => exact iff_of_false Bool.false_ne_true id

theorem edge_pc_of_pcLoad {op : BitVec 4} {s : State} (hld : pcLoad op (zeroFlag s.acc) = true) (imm : Byte) :
    (edge op imm s).pc = if s.stage = .stage3 then imm else s.pc := by
  cases h : s.stage with
  | stage1 => simp [edge_stage1 op imm h]
  | stage2 => simp [edge_stage2 op imm h, hld]
  | stage3 => simp [edge_stage3 op imm h, hld]

theorem edge_pc_of_not_pcLoad {op : BitVec 4} {s : State} (hld : ¬pcLoad op (zeroFlag s.acc) = true) (imm : Byte) :
    (edge op imm s).pc = if s.stage = .stage2 then s.pc + 1 else s.pc := by
  cases h : s.stage with
  | stage1 => simp [edge_stage1 op imm h]
  | stage2 => simp [edge_stage2 op imm h, hld]
  | stage3 => simp [edge_stage3 op imm h, hld]

/-- Settles O18: PC_LD is the taken jump, and the increment of an 8-bit counter wraps (42_register_file.md R119). -/
theorem pcCounter : Obligations.PcCounter := by
  intro s t hclr hstep
  rw [eq_edge_of_step hclr hstep, ← pcLoad_eq_true_iff_taken, opcode_decode]
  refine ⟨fun hld => edge_pc_of_pcLoad hld _, fun hld => ?_⟩
  rw [edge_pc_of_not_pcLoad hld, apply_ite BitVec.toNat, BitVec.toNat_add]
  rfl

end Sys2Proof.Proofs
end

section
/-! The cycle of an instruction that writes ACC: what it commits in STAGE3 and its net effect over three steps, and from that the
immediate instructions (44_instr_immediate.md R128, R130 to R133). -/

namespace Sys2Proof.Proofs

open Sys2Proof.Machine Sys2Proof.Safety Sys2Proof.Laws

/-! ### The instructions that write ACC -/

/-- The ACC an instruction leaves, from the ACC and memory before it (44_instr_immediate.md R128; 45_instr_memory.md R138). -/
def accAfter (acc : Byte) (mem : Memory) : Instr → Byte
  | .move imm => imm
  | .add imm => acc + imm
  | .sub imm => acc - imm
  | .and imm => acc &&& imm
  | .load ea => loByte (mem.readWord ea)
  | .addm ea => acc + loByte (mem.readWord ea)
  | .subm ea => acc - loByte (mem.readWord ea)
  | .store _ | .jumpu _ | .jumpz _ | .jumpnz _ => acc
  | .undef11 _ | .undef12 _ | .undef13 _ | .undef14 _ | .undef15 _ => acc

theorem writesAcc_iff_opcode (i : Instr) : WritesAcc i ↔ i.opcode.toNat ∈ [0, 1, 2, 3, 4, 6, 7] := by
  cases i <;> simp [WritesAcc, Instr.opcode]

theorem opcode_ne_store_of_writesAcc {i : Instr} (hw : WritesAcc i) : i.opcode ≠ 5 := by
  intro h
  rw [writesAcc_iff_opcode, h] at hw
  exact absurd hw (by decide)

theorem not_taken_of_writesAcc {i : Instr} (hw : WritesAcc i) (acc : Byte) : ¬Taken acc i := by
  cases i with
  | jumpu | jumpz | jumpnz => exact hw.elim
  | _ => exact id

theorem not_pcLoad_of_writesAcc {i : Instr} (hw : WritesAcc i) (acc : Byte) : ¬pcLoad i.opcode (zeroFlag acc) = true :=
  mt (pcLoad_eq_true_iff_taken i acc).mp (not_taken_of_writesAcc hw acc)

/-- For an instruction that writes ACC, B and ACC_CTL of STAGE3 select its result (41_sequencer.md R107; 40_alu.md R82). -/
theorem aluOut_eq_accAfter {i : Instr} (hw : WritesAcc i) {s : State} (h : s.stage = .stage3) :
    aluOut i.opcode i.operand s = accAfter s.acc s.mem i := by
  rw [aluOut_stage3 h, linesOf, h, accCtl_stage3, ← loByte_readWord]
  cases i with
  | move | load => exact alu_of_selector_two_or_three (ctl := 0b100) _ _ (.inl rfl)
  | and => exact alu_of_selector_one (ctl := 0b010) _ _ rfl
  | add | addm => exact alu_of_selector_zero (ctl := 0b000) _ _ rfl
  | sub | subm => exact (alu_of_selector_zero (ctl := 0b001) _ _ rfl).trans (addsub_true _ _)
  | _ => exact hw.elim

/-- The STAGE3 edge of an instruction that writes ACC changes nothing else (44_instr_immediate.md R128). -/
theorem edge_stage3_of_writesAcc {i : Instr} (hw : WritesAcc i) {s : State} (h : s.stage = .stage3) :
    edge i.opcode i.operand s = stage3Done s (accAfter s.acc s.mem i) s.pc s.mem := by
  have haccEn : (linesOf i.opcode s).accEn = true := by
    rw [linesOf, h, accEn_stage3, decide_eq_true ((writesAcc_iff_opcode i).mp hw)]
  rw [edge_stage3 _ _ h, if_pos haccEn, if_neg (not_pcLoad_of_writesAcc hw _), if_neg (opcode_ne_store_of_writesAcc hw),
    aluOut_eq_accAfter hw h]
  rfl

/-- The net effect of an instruction that writes ACC (44_instr_immediate.md R128; 45_instr_memory.md R138). -/
theorem steps_three_of_writesAcc {i : Instr} {s : State} (h : AtFetch i s) (hw : WritesAcc i) :
    steps 3 s = .next (cycleEnd s (accAfter s.acc s.mem i) (s.pc + 1) s.mem) := by
  obtain ⟨s2, step1, step2, rfl, step3⟩ := cycle_steps h
  rw [steps_succ step1, steps_succ step2, steps_succ step3, steps_zero, edge_stage3_of_writesAcc hw rfl,
    if_neg (not_pcLoad_of_writesAcc hw _)]
  rfl

/-- Z is the zero test of ACC (10_state.md R27). -/
theorem zeroFlag_eq_true_iff (acc : Byte) : zeroFlag acc = true ↔ acc = 0 := beq_iff_eq

/-! ### The immediate instructions -/

/-- Settles O27: ACC after `move` is the operand. -/
theorem moveCycle : Obligations.MoveCycle :=
  fun imm _ h => ⟨steps_three_of_writesAcc h trivial, zeroFlag_eq_true_iff imm⟩

/-- Settles O28: ACC after `add` is the 8-bit sum, which wraps. -/
theorem addCycle : Obligations.AddCycle :=
  fun imm s h => ⟨s.acc + imm, steps_three_of_writesAcc h trivial, BitVec.toNat_add _ _, zeroFlag_eq_true_iff _⟩

/-- Settles O29: ACC after `sub` is the difference, in both of the adder's forms, and it is zero when the two are equal. -/
theorem subCycle : Obligations.SubCycle := by
  intro imm s h
  have hzero : zeroFlag (s.acc - imm) = true ↔ s.acc = imm := (zeroFlag_eq_true_iff _).trans sub_eq_zero
  exact ⟨s.acc - imm, steps_three_of_writesAcc h trivial, (addsub_true s.acc imm).symm, rfl, hzero⟩

/-- Settles O30: ACC after `and` is the bitwise conjunction. -/
theorem andCycle : Obligations.AndCycle :=
  fun _ _ h => ⟨steps_three_of_writesAcc h trivial, zeroFlag_eq_true_iff _⟩

end Sys2Proof.Proofs
end

section
/-! The memory instructions over their three steps: load, addm and subm as instructions that write ACC, and store with the one word
it writes (45_instr_memory.md R138, R140 to R143). -/

namespace Sys2Proof.Proofs

open Sys2Proof.Machine Sys2Proof.Safety Sys2Proof.Laws

/-! ### Instructions that write ACC from memory -/

/-- Settles O31: ACC after `load` is the low byte of the word. -/
theorem loadCycle : Obligations.LoadCycle :=
  fun _ _ h => ⟨steps_three_of_writesAcc h trivial, zeroFlag_eq_true_iff _⟩

/-- Settles O33: ACC after `addm` is the 8-bit sum, which wraps. -/
theorem addmCycle : Obligations.AddmCycle :=
  fun ea s h => ⟨s.acc + loByte (s.mem.readWord ea), steps_three_of_writesAcc h trivial, BitVec.toNat_add _ _,
    zeroFlag_eq_true_iff _⟩

/-- Settles O34: ACC after `subm` is the difference, which is zero when ACC was the low byte of the word. -/
theorem submCycle : Obligations.SubmCycle := by
  intro ea s h
  have hzero : zeroFlag (s.acc - loByte (s.mem.readWord ea)) = true ↔ s.acc = loByte (s.mem.readWord ea) :=
    (zeroFlag_eq_true_iff _).trans sub_eq_zero
  exact ⟨_, steps_three_of_writesAcc h trivial, rfl, hzero⟩

/-! ### Store -/

/-- A store has neither ACC_EN nor PC_LD: its STAGE3 edge writes the data-out word and changes nothing else (41_sequencer.md R107;
45_instr_memory.md R138). -/
theorem edge_stage3_of_store (ea : Addr) {s : State} (h : s.stage = .stage3) :
    edge 5 ea s = stage3Done s s.acc s.pc (s.mem.writeWord ea (dataOut s)) := by
  have haccEn : (linesOf 5 s).accEn = false := by
    rw [linesOf, h, accEn_stage3]
    rfl
  have hld : pcLoad 5 (zeroFlag s.acc) = false := rfl
  rw [edge_stage3 _ _ h, haccEn, hld]
  rfl

/-- The net effect of a store: its write commits in the third step, with that step's free byte (45_instr_memory.md R138, R141). -/
theorem steps_three_of_store {ea : Addr} {s : State} (h : AtFetch (.store ea) s) :
    steps 3 s =
      .next (cycleEnd s s.acc (s.pc + 1) (s.mem.writeWord ea (Config.storeHi (s.tick + 2) ++ s.acc))) := by
  obtain ⟨s2, step1, step2, rfl, step3⟩ := cycle_steps h
  rw [steps_succ step1, steps_succ step2, steps_succ step3, steps_zero]
  exact congrArg Host.Outcome.next (edge_stage3_of_store ea rfl)

/-- Settles O32: the word at `ea` reads back as the one written, and a read of another word does not see the write. -/
theorem storeCycle : Obligations.StoreCycle := by
  intro ea s h
  refine ⟨_, steps_three_of_store h, rfl, fun hwf => ⟨?_, fun a hne => readWord_writeWord_other hwf hne.symm _⟩⟩
  rw [readWord_writeWord_same hwf, loByte_append]

end Sys2Proof.Proofs
end

section
/-! The jumps over their three steps, and PC through the cycle of any instruction: a taken jump loads PC at the STAGE3 edge, every
other instruction increments it at the STAGE2 edge (46_instr_jumps.md R148, R150 to R153). -/

namespace Sys2Proof.Proofs

open Sys2Proof.Machine Sys2Proof.Safety Sys2Proof.Laws

/-! ### PC through any instruction -/

/-- Settles O39: PC_LD is the taken jump, and IR and ACC hold still between the fetch and the STAGE3 edge, so STAGE2 and STAGE3 agree
on it. -/
theorem pcDuringInstruction : Obligations.PcDuringInstruction := by
  intro i s h
  obtain ⟨s2, step1, step2, hs2, step3⟩ := cycle_steps h
  have hacc : s2.acc = s.acc := by rw [hs2]; rfl
  have hstage : s2.stage = .stage3 := by rw [hs2]; rfl
  have hpc : s2.pc = if pcLoad i.opcode (zeroFlag s.acc) then s.pc else s.pc + 1 := by rw [hs2]; rfl
  refine ⟨_, _, _, step1, step2, step3, rfl, fun htaken => ?_, fun hnot => ?_⟩
  · have hld := (pcLoad_eq_true_iff_taken i s.acc).mpr htaken
    rw [edge_pc_of_pcLoad (by rwa [hacc]), hstage, hpc]
    exact ⟨if_pos hld, if_pos rfl⟩
  · have hld := mt (pcLoad_eq_true_iff_taken i s.acc).mp hnot
    rw [edge_pc_of_not_pcLoad (by rwa [hacc]), hstage, hpc, if_neg hld]
    exact ⟨rfl, if_neg (by decide)⟩

/-! ### Opcodes 8 to 15: the instructions that write neither ACC nor memory -/

/-- From opcode 8 on neither ACC_EN nor RAM_WR is asserted: the STAGE3 edge can change PC alone (41_sequencer.md R107). -/
theorem edge_stage3_of_eight_le {op : BitVec 4} (hop : 8 ≤ op.toNat) (imm : Byte) {s : State} (h : s.stage = .stage3) :
    edge op imm s = stage3Done s s.acc (if pcLoad op (zeroFlag s.acc) then imm else s.pc) s.mem := by
  have haccEn : (linesOf op s).accEn = false := by
    have hnot : op.toNat ∉ [0, 1, 2, 3, 4, 6, 7] := by
      simp only [List.mem_cons, List.not_mem_nil, or_false]
      omega
    rw [linesOf, h, accEn_stage3, decide_eq_false hnot]
  have hstore : op ≠ 5 := by
    rintro rfl
    exact absurd hop (by decide)
  rw [edge_stage3 _ _ h, haccEn, if_neg hstore]
  rfl

/-- Two and three steps from the fetch of an instruction of opcode 8 to 15: PC is its only effect (46_instr_jumps.md R148;
47_instr_undefined.md R158). -/
theorem cycle_of_eight_le {i : Instr} {s : State} (h : AtFetch i s) (hop : 8 ≤ i.opcode.toNat) :
    ∃ u, steps 2 s = .next u ∧
      (Taken s.acc i → u.pc = s.pc ∧ steps 3 s = .next (cycleEnd s s.acc i.operand s.mem)) ∧
      (¬Taken s.acc i → u.pc = s.pc + 1 ∧ steps 3 s = .next (cycleEnd s s.acc (s.pc + 1) s.mem)) := by
  obtain ⟨u, step1, step2, rfl, step3⟩ := cycle_steps h
  have three : steps 3 s = .next (cycleEnd s s.acc
      (if pcLoad i.opcode (zeroFlag s.acc) then i.operand else if pcLoad i.opcode (zeroFlag s.acc) then s.pc else s.pc + 1)
      s.mem) := by
    rw [steps_succ step1, steps_succ step2, steps_succ step3, edge_stage3_of_eight_le hop _ rfl]
    rfl
  refine ⟨_, by rw [steps_succ step1, steps_succ step2, steps_zero], fun htaken => ?_, fun hnot => ?_⟩
  · have hld := (pcLoad_eq_true_iff_taken i s.acc).mpr htaken
    exact ⟨if_pos hld, by rw [three, if_pos hld]⟩
  · have hld := mt (pcLoad_eq_true_iff_taken i s.acc).mp hnot
    exact ⟨if_neg hld, by rw [three, if_neg hld, if_neg hld]⟩

/-! ### The jumps -/

/-- Settles O35: `jumpu` is always taken. -/
theorem jumpuCycle : Obligations.JumpuCycle := by
  intro t s h
  obtain ⟨u, hu, htaken, -⟩ := cycle_of_eight_le h (Nat.le_refl 8)
  obtain ⟨hpc, hend⟩ := htaken trivial
  exact ⟨⟨u, hu, hpc⟩, hend⟩

/-- Settles O36: `jumpz` is taken exactly when ACC is zero. -/
theorem jumpzCycle : Obligations.JumpzCycle :=
  fun _ _ h => cycle_of_eight_le h (by decide : 8 ≤ 9)

/-- Settles O37: `jumpnz` is taken exactly when ACC is not zero. -/
theorem jumpnzCycle : Obligations.JumpnzCycle := by
  intro t s h
  obtain ⟨u, hu, htaken, hnot⟩ := cycle_of_eight_le h (by decide : 8 ≤ 10)
  exact ⟨u, hu, htaken, fun hzero => hnot (not_not_intro hzero)⟩

end Sys2Proof.Proofs
end

section
/-! The undefined opcodes over their three steps: no jump is taken, so they only increment PC (47_instr_undefined.md R158, R160 to
R164). -/

namespace Sys2Proof.Proofs

open Sys2Proof.Machine Sys2Proof.Safety Sys2Proof.Laws

theorem eleven_le_opcode_of_isUndefined {i : Instr} (hi : IsUndefined i) : 11 ≤ i.opcode.toNat := by
  cases i with
  | undef11 | undef12 | undef13 | undef14 | undef15 => simp [Instr.opcode]
  | _ => exact hi.elim

/-- An undefined opcode never asserts PC_LD (41_sequencer.md R107). -/
theorem not_taken_of_isUndefined {i : Instr} (hi : IsUndefined i) (acc : Byte) : ¬Taken acc i := by
  have hld := pcLoad_eq_false_of_undefined (eleven_le_opcode_of_isUndefined hi) (zeroFlag acc)
  rw [← pcLoad_eq_true_iff_taken, hld]
  exact Bool.false_ne_true

/-- Settles O38: the untaken case of the cycle of opcodes 8 to 15. -/
theorem undefinedOpcodeCycle : Obligations.UndefinedOpcodeCycle := by
  intro i s hi h
  have hop : 8 ≤ i.opcode.toNat := le_trans (by decide) (eleven_le_opcode_of_isUndefined hi)
  obtain ⟨u, hu, -, hnot⟩ := cycle_of_eight_le h hop
  obtain ⟨hpc, hend⟩ := hnot (not_taken_of_isUndefined hi s.acc)
  exact ⟨⟨u, hu, hpc⟩, hend⟩

end Sys2Proof.Proofs
end

section
/-! The encoding: a word is its three fields, so decode and encode are inverse up to the unused bits (30_encoding.md R61, R69,
R73). -/

namespace Sys2Proof.Proofs

open Sys2Proof.Machine Sys2Proof.Safety Sys2Proof.Laws

theorem ofOpcode_opcode_operand (i : Instr) : ofOpcode i.opcode i.operand = i := by
  cases i <;> rfl

theorem isUndefined_of_eleven_le_opcode {i : Instr} (h : 11 ≤ i.opcode.toNat) : IsUndefined i := by
  cases i with
  | undef11 | undef12 | undef13 | undef14 | undef15 => trivial
  | _ => simp [Instr.opcode] at h

/-- The fields of an instruction's word, for every instruction (30_encoding.md R61, R69). -/
theorem encode_fields (i : Instr) : Fields.Statement i := Fields.encodeFields_fields _ _

theorem decode_encode (i : Instr) : decode (encode i) = i := by
  obtain ⟨hop, himm, -⟩ := encode_fields i
  rw [decode, hop, himm, ofOpcode_opcode_operand]

/-- A word is determined by its three fields (30_encoding.md R61). -/
theorem word_ext_fields {v w : Word} (hop : opcodeOf v = opcodeOf w) (hun : unusedOf v = unusedOf w)
    (himm : operandOf v = operandOf w) : v = w := by
  have split_fields : ∀ x : Word, x = opcodeOf x ++ unusedOf x ++ operandOf x := fun x => by
    have hhi : hiByte x = opcodeOf x ++ unusedOf x :=
      (BitVec.extractLsb'_append_extractLsb'_eq_extractLsb' (show 12 = 8 + 4 from rfl)).symm
    rw [← hhi, operandOf_eq_loByte, hi_append_lo]
  rw [split_fields v, split_fields w, hop, hun, himm]

/-- Encoding what was decoded clears the unused bits, and gives the word back where they are zero (30_encoding.md R69). -/
theorem encode_decode_eq_iff (w : Word) : encode (decode w) = w ↔ unusedOf w = 0 := by
  obtain ⟨hop, himm, hun⟩ := encode_fields (decode w)
  rw [opcode_decode] at hop
  rw [operand_decode] at himm
  exact ⟨fun h => by rwa [h] at hun, fun h => word_ext_fields hop (hun.trans h.symm) himm⟩

/-- Settles O1: the fields of a decoded word, and the two round trips. -/
theorem decodeEncodeAgree : Obligations.DecodeEncodeAgree := by
  refine ⟨fun w => ⟨opcode_decode w, operand_decode w, fun h => ?_⟩, fun _ => rfl, decode_encode, encode_decode_eq_iff⟩
  exact isUndefined_of_eleven_le_opcode (by rwa [opcode_decode])

/-- Settles O2: each fixed word is decoded by evaluation. -/
theorem specWordsDecode : Obligations.SpecWordsDecode := by
  unfold Obligations.SpecWordsDecode
  decide

/-- Settles O4: the assembled word is the encoding of the mnemonic's instruction. -/
theorem assembledWordDecodes : Obligations.AssembledWordDecodes := by
  intro env m v _
  obtain ⟨-, -, hun⟩ := encode_fields (mnemonicInstr m (BitVec.ofNat 8 v))
  exact ⟨decode_encode _, hun⟩

end Sys2Proof.Proofs
end

section
/-! The control lines: the STAGE1 lines, the memory enables in closed form, and the truth table (41_sequencer.md R94 to R109). -/

namespace Sys2Proof.Proofs

open Sys2Proof.Machine Sys2Proof.Safety Sys2Proof.Laws

/-- The STAGE1 lines: the fetch, and the three lines without a stage term (41_sequencer.md R108). -/
theorem lines_stage1 (op : BitVec 4) (z : Bool) :
    lines .stage1 op z =
      { irEn := true, romEn := true, ramEn := false, addrSel := false, dataSel := (lines .stage2 op z).dataSel,
        ramWr := false, pcLd := (lines .stage2 op z).pcLd, pcEn := false, accEn := false,
        accCtl := (lines .stage2 op z).accCtl } := by
  simp [lines]

/-! ### The memory enables -/

theorem romEn_eq_true_iff (stage : Stage) (op : BitVec 4) (z : Bool) :
    (lines stage op z).romEn = true ↔ stage = .stage1 := beq_iff_eq

/-- RAM_EN and ADDR_SEL are one line under two names (41_sequencer.md R96, R97). -/
theorem ramEn_eq_true_iff (stage : Stage) (op : BitVec 4) (z : Bool) :
    (lines stage op z).ramEn = true ↔ stage ≠ .stage1 ∧ op.toNat ∈ [4, 5, 6, 7] := by
  have same : (lines stage op z).ramEn = (lines stage op z).addrSel := Bool.and_comm _ _
  rw [same, addrSel_eq_decide, decide_eq_true_eq]

/-- RAM_WR is asserted in STAGE3 of a store alone (41_sequencer.md R99). -/
theorem ramWr_eq_true_iff (stage : Stage) (op : BitVec 4) (z : Bool) :
    (lines stage op z).ramWr = true ↔ stage = .stage3 ∧ op = 5 := by
  simp [lines, decodeLine]

theorem dataSel_eq_true_iff (stage : Stage) (op : BitVec 4) (z : Bool) :
    (lines stage op z).dataSel = true ↔ op.toNat ∈ [4, 6, 7] := by
  have same : (lines stage op z).dataSel = (lines .stage3 op z).dataSel := rfl
  rw [same, dataSel_stage3, decide_eq_true_eq]

theorem mem_memory_opcodes_of_mem_read_opcodes {n : Nat} (h : n ∈ [4, 6, 7]) : n ∈ [4, 5, 6, 7] := by
  simp only [List.mem_cons, List.not_mem_nil, or_false] at h ⊢
  omega

/-- Settles O10: ROM_EN belongs to STAGE1, RAM_EN to the later stages, RAM_WR to STAGE3 of a store. -/
theorem enableExclusivity : Obligations.EnableExclusivity := by
  intro stage op z
  have hwr_en : (lines stage op z).ramWr = true → (lines stage op z).ramEn = true := fun h => by
    obtain ⟨rfl, rfl⟩ := (ramWr_eq_true_iff stage op z).mp h
    exact (ramEn_eq_true_iff _ _ z).mpr (by decide)
  have hrom_ram : ¬((lines stage op z).romEn = true ∧ (lines stage op z).ramEn = true) := fun ⟨hrom, hram⟩ =>
    ((ramEn_eq_true_iff stage op z).mp hram).1 ((romEn_eq_true_iff stage op z).mp hrom)
  refine ⟨_, rfl, hrom_ram, fun ⟨hrom, hwr⟩ => hrom_ram ⟨hrom, hwr_en hwr⟩, hwr_en, ?_⟩
  exact (and_iff_right_of_imp hwr_en).trans (ramWr_eq_true_iff stage op z)

/-- Settles O9: the fetch step does not read IR, and every opcode that reads data is a memory opcode. -/
theorem fetchStageLines : Obligations.FetchStageLines := by
  refine ⟨fun op z => ⟨_, lines_stage1 op z, rfl, rfl, rfl, rfl, rfl, rfl, rfl, rfl, rfl, rfl⟩,
    fun s previous h hclr => step_stage1 (s := { s with ir := previous }) h hclr,
    fun stage op z hstage => ⟨?_, fun hread => ?_⟩⟩
  · exact beq_eq_false_iff_ne.mpr hstage
  · have hop := (dataSel_eq_true_iff stage op z).mp hread
    exact (ramEn_eq_true_iff stage op z).mpr ⟨hstage, mem_memory_opcodes_of_mem_read_opcodes hop⟩

/-! ### The truth table -/

/-- No control line reads the operand field (41_sequencer.md R106). -/
theorem controlTable_eq_of_opcode (stage3 z : Bool) (i : Instr) :
    controlTable stage3 z i = controlTable stage3 z (ofOpcode i.opcode 0) := by
  cases i <;> rfl

/-- The table, opcode by opcode (41_sequencer.md R107). -/
theorem lines_eq_controlTable_of_opcode : ∀ (op : BitVec 4) (z : Bool),
    lines .stage2 op z = controlTable false z (ofOpcode op 0) ∧ lines .stage3 op z = controlTable true z (ofOpcode op 0) := by
  decide

/-- Settles O8: DATA_SEL, ACC_CTL and PC_LD have no stage term, so STAGE2 of the table gives them in every stage. -/
theorem controlLinesAreTheTable : Obligations.ControlLinesAreTheTable := by
  intro i z
  obtain ⟨htwo, hthree⟩ := lines_eq_controlTable_of_opcode i.opcode z
  rw [← controlTable_eq_of_opcode] at htwo hthree
  refine ⟨htwo, hthree, fun stage => ?_⟩
  rw [← htwo]
  exact ⟨rfl, rfl, rfl⟩

end Sys2Proof.Proofs
end

section
/-! The adder's two readings: the result wraps modulo 256 as an unsigned and as a two's-complement number (40_alu.md R81, R85,
R86). -/

namespace Sys2Proof.Proofs

open Sys2Proof.Machine

/-- Settles O7: the adder is the 8-bit sum or difference, which the library reads both ways. -/
theorem adderWrapsBothReadings : Obligations.AdderWrapsBothReadings := by
  intro a b
  rw [addsub_false, addsub_true]
  refine ⟨BitVec.toNat_add a b, ?_, BitVec.toInt_add a b, BitVec.toInt_sub⟩
  rw [BitVec.toNat_sub, Nat.add_comm]

end Sys2Proof.Proofs
end

section
/-! One step: it always completes, it is the spec's datapath step, and it runs the instruction its stage is about
(43_datapath.md R122). -/

namespace Sys2Proof.Proofs

open Sys2Proof.Machine Sys2Proof.Safety Sys2Proof.Laws

/-- Settles O14: with the clear the step is the clear step, without it the edge. -/
theorem everyStepCompletes : Obligations.EveryStepCompletes := by
  intro s
  cases hclr : s.clr with
  | true => exact ⟨_, step_clear hclr⟩
  | false => exact ⟨_, step_edge hclr⟩

/-- The memory-read byte is bits [7:0] of the read data (20_memory.md R45). -/
theorem readDataByte_eq_loByte (op : BitVec 4) (imm : Byte) (s : State) :
    readDataByte op imm s = loByte (readData op imm s) := (loByte_readWord _ _).symm

/-- The edge for the fields of IR is the step function as the spec writes it (43_datapath.md R122). -/
theorem edge_eq_datapathStep (s : State) : edge (opcodeOf s.ir) (operandOf s.ir) s = datapathStep s := by
  simp only [edge, aluOut, storeCommit_eq, readDataByte_eq_loByte]
  rfl

/-- Settles O11: a clear-free step is the edge. -/
theorem stepIsDatapathStep : Obligations.StepIsDatapathStep := by
  intro s hclr
  rw [step_edge hclr, edge_eq_datapathStep]

/-! ### Which instruction a step runs -/

theorem exec_of_stage1 (i : Instr) {s : State} (h : s.stage = .stage1) : exec i s = .next (fetchDone s) := by
  rw [exec_eq_edge, edge_stage1 _ _ h]
  rfl

theorem step_eq_exec_decode_ir {s : State} (hclr : s.clr = false) : step s = exec (decode s.ir) s := by
  rw [step_edge hclr, exec_eq_edge, opcode_decode, operand_decode]

/-- A fetch step is the STAGE1 step of every instruction (41_sequencer.md R108). -/
theorem step_eq_exec_of_stage1 (i : Instr) {s : State} (h : s.stage = .stage1) (hclr : s.clr = false) :
    step s = exec i s :=
  (step_stage1 h hclr).trans (exec_of_stage1 i h).symm

/-- Settles O12: in STAGE1 any instruction gives the step, so the one at PC does. -/
theorem stepRunsDecodedInstruction : Obligations.StepRunsDecodedInstruction :=
  fun _ hclr => ⟨fun h => step_eq_exec_of_stage1 _ h hclr, fun _ => step_eq_exec_decode_ir hclr⟩

/-- Settles O13: the word placed at PC is read back whole. -/
theorem placedWordIsFetchedNext : Obligations.PlacedWordIsFetchedNext := by
  intro s w hwf hw
  have hword : fetchWord (s.withFetchWord 16 w) = BitVec.ofNat 16 w := by
    rw [State.withFetchWord, Nat.mod_eq_of_lt hw]
    exact readWord_writeWord_same hwf _ _
  exact ⟨_, if_pos ⟨le_rfl, hw⟩, ⟨rfl, rfl, congrArg decode hword⟩, step_eq_exec_of_stage1 _ rfl rfl⟩

/-! ### What the step writes -/

/-- Settles O21: RAM_WR is asserted exactly where O19 has the write, and there the address port carries the operand. -/
theorem portsDriveTheWrite : Obligations.PortsDriveTheWrite := by
  intro s t hclr hstep
  obtain ⟨hwrite, hkeep⟩ := onlyStoreWritesMemory s t hclr hstep
  have hwr : (Driver.ports s).ramWr = true ↔ s.stage = .stage3 ∧ opcodeOf s.ir = 5 := ramWr_eq_true_iff _ _ (zeroFlag s.acc)
  refine ⟨fun hlow => hkeep (mt hwr.mpr (Bool.eq_false_iff.mp hlow)), fun hhigh => ⟨?_, loByte_append _ _⟩⟩
  obtain ⟨hstage, hop⟩ := hwr.mp hhigh
  have haddr : (Driver.ports s).memAddr = operandOf s.ir := by
    rw [addressMultiplexer s, if_pos ⟨by simp [hstage], by simp [hop]⟩]
  rw [haddr]
  exact hwrite ⟨hstage, hop⟩

/-- Settles O22: the read of the written word and of any other. -/
theorem writeChangesOneWord : Obligations.WriteChangesOneWord := by
  intro m a b w hwf
  split
  next h => rw [h, readWord_writeWord_same hwf]
  next h => exact readWord_writeWord_other hwf (Ne.symm h) w

end Sys2Proof.Proofs
end

section
/-! The instructions stage by stage: what `exec` answers in STAGE2 and STAGE3 for each kind of instruction, and from that where each
completes (44_instr_immediate.md R128; 45_instr_memory.md R138; 46_instr_jumps.md R148; 47_instr_undefined.md R158). -/

namespace Sys2Proof.Proofs

open Sys2Proof.Machine Sys2Proof.Safety Sys2Proof.Laws

/-! ### STAGE2 -/

theorem exec_of_stage2 (i : Instr) {s : State} (h : s.stage = .stage2) :
    exec i s = .next (stage2Done s (if pcLoad i.opcode (zeroFlag s.acc) then s.pc else s.pc + 1)) := by
  rw [exec_eq_edge, edge_stage2 _ _ h]
  rfl

theorem exec_of_stage2_of_not_taken {i : Instr} {s : State} (h : s.stage = .stage2) (hi : ¬Taken s.acc i) :
    exec i s = .next (stage2Done s (s.pc + 1)) := by
  rw [exec_of_stage2 i h, if_neg (mt (pcLoad_eq_true_iff_taken i s.acc).mp hi)]

theorem exec_of_stage2_of_writesAcc {i : Instr} {s : State} (h : s.stage = .stage2) (hw : WritesAcc i) :
    exec i s = .next (stage2Done s (s.pc + 1)) :=
  exec_of_stage2_of_not_taken h (not_taken_of_writesAcc hw _)

/-! ### STAGE3 -/

theorem exec_of_stage3_of_writesAcc {i : Instr} {s : State} (h : s.stage = .stage3) (hw : WritesAcc i) :
    exec i s = .next (stage3Done s (accAfter s.acc s.mem i) s.pc s.mem) := by
  rw [exec_eq_edge, edge_stage3_of_writesAcc hw h]

theorem exec_of_stage3_of_eight_le {i : Instr} {s : State} (h : s.stage = .stage3) (hop : 8 ≤ i.opcode.toNat) :
    exec i s = .next (stage3Done s s.acc (if pcLoad i.opcode (zeroFlag s.acc) then i.operand else s.pc) s.mem) := by
  rw [exec_eq_edge, edge_stage3_of_eight_le hop _ h]

/-! ### PC_LD of the conditional jumps -/

theorem ite_pcLoad_jumpz {α : Type} (t : Addr) (acc : Byte) (x y : α) :
    (if pcLoad (Instr.jumpz t).opcode (zeroFlag acc) then x else y) = if acc = 0x00 then x else y :=
  if_congr (pcLoad_eq_true_iff_taken (.jumpz t) acc) rfl rfl

theorem ite_pcLoad_jumpnz {α : Type} (t : Addr) (acc : Byte) (x y : α) :
    (if pcLoad (Instr.jumpnz t).opcode (zeroFlag acc) then x else y) = if acc ≠ 0x00 then x else y :=
  if_congr (pcLoad_eq_true_iff_taken (.jumpnz t) acc) rfl rfl

/-! ### Completion -/

/-- Settles O23: each of the four is an instruction that writes ACC. -/
theorem immediateInstructionsComplete : Obligations.ImmediateInstructionsComplete := by
  intro imm s
  refine ⟨fun h => ?_, fun h => ?_, fun h => ?_⟩
  · exact ⟨exec_of_stage1 _ h, exec_of_stage1 _ h, exec_of_stage1 _ h, exec_of_stage1 _ h⟩
  · exact ⟨exec_of_stage2_of_writesAcc h trivial, exec_of_stage2_of_writesAcc h trivial,
      exec_of_stage2_of_writesAcc h trivial, exec_of_stage2_of_writesAcc h trivial⟩
  · exact ⟨exec_of_stage3_of_writesAcc h trivial, exec_of_stage3_of_writesAcc h trivial,
      exec_of_stage3_of_writesAcc h trivial, exec_of_stage3_of_writesAcc h trivial⟩

/-- Settles O24: load, addm and subm write ACC, and store writes the data-out word. -/
theorem memoryInstructionsComplete : Obligations.MemoryInstructionsComplete := by
  intro ea s
  refine ⟨fun h => ?_, fun h => ?_, fun h => ?_⟩
  · exact ⟨exec_of_stage1 _ h, exec_of_stage1 _ h, exec_of_stage1 _ h, exec_of_stage1 _ h⟩
  · exact ⟨exec_of_stage2_of_writesAcc h trivial, exec_of_stage2_of_not_taken h id,
      exec_of_stage2_of_writesAcc h trivial, exec_of_stage2_of_writesAcc h trivial⟩
  · exact ⟨exec_of_stage3_of_writesAcc h trivial, congrArg Host.Outcome.next (edge_stage3_of_store ea h),
      exec_of_stage3_of_writesAcc h trivial, exec_of_stage3_of_writesAcc h trivial⟩

/-- Settles O25: PC_LD holds in STAGE2 and STAGE3 alike, and it is the jump's condition. -/
theorem jumpsComplete : Obligations.JumpsComplete := by
  intro t s
  refine ⟨fun h => ?_, fun h => ?_, fun h => ?_⟩
  · exact ⟨exec_of_stage1 _ h, exec_of_stage1 _ h, exec_of_stage1 _ h⟩
  · refine ⟨exec_of_stage2 (.jumpu t) h, ?_, ?_⟩
    · rw [exec_of_stage2 _ h, ite_pcLoad_jumpz]
    · rw [exec_of_stage2 _ h, ite_pcLoad_jumpnz]
  · refine ⟨exec_of_stage3_of_eight_le (i := .jumpu t) h (by decide : 8 ≤ 8), ?_, ?_⟩
    · rw [exec_of_stage3_of_eight_le (i := .jumpz t) h (by decide : 8 ≤ 9), ite_pcLoad_jumpz]
      rfl
    · rw [exec_of_stage3_of_eight_le (i := .jumpnz t) h (by decide : 8 ≤ 10), ite_pcLoad_jumpnz]
      rfl

/-- Settles O26: an undefined opcode takes no jump. -/
theorem undefinedOpcodesComplete : Obligations.UndefinedOpcodesComplete := by
  intro i s hi
  have hop := eleven_le_opcode_of_isUndefined hi
  refine ⟨exec_of_stage1 i, fun h => exec_of_stage2_of_not_taken h (not_taken_of_isUndefined hi _), fun h => ?_⟩
  rw [exec_of_stage3_of_eight_le h (le_trans (by decide) hop), pcLoad_eq_false_of_undefined hop]
  rfl

end Sys2Proof.Proofs
end

section
/-! Frames: what a step of each kind of instruction leaves unchanged, from the edge's fields in every stage (42_register_file.md
R116, R117; 20_memory.md R46). -/

namespace Sys2Proof.Proofs

open Sys2Proof.Machine Sys2Proof.Safety Sys2Proof.Laws

theorem eq_edge_of_exec {i : Instr} {s t : State} (h : exec i s = .next t) : t = edge i.opcode i.operand s :=
  Host.Outcome.next.inj (h.symm.trans (exec_eq_edge i s))

theorem edge_ir_of_ne_stage1 (op : BitVec 4) (imm : Byte) {s : State} (h : s.stage ≠ .stage1) :
    (edge op imm s).ir = s.ir := by
  rw [edge_ir_eq_ite, if_neg h]

theorem edge_acc_of_ne_stage3 (op : BitVec 4) (imm : Byte) {s : State} (h : s.stage ≠ .stage3) :
    (edge op imm s).acc = s.acc := by
  rw [edge_acc_eq_ite, if_neg fun hcommit => h hcommit.1]

theorem edge_acc_of_not_mem {op : BitVec 4} (h : op.toNat ∉ [0, 1, 2, 3, 4, 6, 7]) (imm : Byte) (s : State) :
    (edge op imm s).acc = s.acc := by
  rw [edge_acc_eq_ite, if_neg fun hcommit => h hcommit.2]

theorem edge_mem_of_ne_stage3 (op : BitVec 4) (imm : Byte) {s : State} (h : s.stage ≠ .stage3) :
    (edge op imm s).mem = s.mem := by
  rw [edge_mem_eq_ite, if_neg fun hcommit => h hcommit.1]

theorem edge_mem_of_ne_store {op : BitVec 4} (h : op ≠ 5) (imm : Byte) (s : State) : (edge op imm s).mem = s.mem := by
  rw [edge_mem_eq_ite, if_neg fun hcommit => h hcommit.2]

theorem sameBytes_of_mem_eq {s t : State} (h : t.mem = s.mem) : SameBytes s t := fun k => congrArg (·.readByte k) h

/-- The store is the only instruction of its opcode (30_encoding.md R64). -/
theorem eq_store_of_opcode {i : Instr} (h : i.opcode = 5) : i = .store i.operand := by
  rw [← ofOpcode_opcode_operand i, h]
  rfl

/-- Settles O41: an opcode that writes ACC is not the store's. -/
theorem accInstructionsFrame : Obligations.AccInstructionsFrame := by
  intro i s t hw hexec
  rw [eq_edge_of_exec hexec]
  exact ⟨sameBytes_of_mem_eq (edge_mem_of_ne_store (opcode_ne_store_of_writesAcc hw) _ s), rfl,
    edge_ir_of_ne_stage1 _ _, edge_acc_of_ne_stage3 _ _⟩

/-- Settles O42: only STAGE3 writes, and what it writes are the two bytes of one word. -/
theorem storeFrame : Obligations.StoreFrame := by
  intro ea s t hwf hexec
  rw [eq_edge_of_exec hexec]
  refine ⟨edge_acc_of_not_mem (by decide : (5 : BitVec 4).toNat ∉ _) _ s, rfl, edge_ir_of_ne_stage1 _ _,
    fun h => sameBytes_of_mem_eq (edge_mem_of_ne_stage3 _ _ h), fun k hlo hhi => ?_⟩
  rw [edge_mem_eq_ite]
  split
  next => exact (readByte_writeWord hwf ea _ k).trans ((if_neg hhi).trans (if_neg hlo))
  next => rfl

/-- Settles O43: the instruction's opcode is neither the store's nor one that enables ACC. -/
theorem jumpAndUndefinedFrame : Obligations.JumpAndUndefinedFrame := by
  intro i s t hw hne hexec
  have hstore : i.opcode ≠ 5 := fun h => hne _ (eq_store_of_opcode h)
  rw [eq_edge_of_exec hexec]
  exact ⟨sameBytes_of_mem_eq (edge_mem_of_ne_store hstore _ s), edge_acc_of_not_mem (mt (writesAcc_iff_opcode i).mpr hw) _ s,
    rfl, edge_ir_of_ne_stage1 _ _⟩

end Sys2Proof.Proofs
end

section
/-! The clear step: what it leaves in each register and in memory, and the first fetch after it (70_reset_and_hazards.md R190 to
R194). -/

namespace Sys2Proof.Proofs

open Sys2Proof.Machine Sys2Proof.Safety Sys2Proof.Laws

theorem eq_clearEdge_of_step {s t : State} (hclr : s.clr = true) (h : step s = .next t) : t = clearEdge s :=
  Host.Outcome.next.inj (h.symm.trans (step_clear hclr))

/-- A store pending in STAGE3 commits in the clear step where the draw says so (70_reset_and_hazards.md R191). -/
theorem clearEdge_mem_eq_ite (s : State) :
    (clearEdge s).mem = if s.stage = .stage3 ∧ opcodeOf s.ir = 5 ∧ Config.clrWr s.tick = true
      then s.mem.writeWord (operandOf s.ir) (dataOut s) else s.mem := by
  have hcommit : ((linesOf (opcodeOf s.ir) s).ramWr && Config.clrWr s.tick) = true ↔
      s.stage = .stage3 ∧ opcodeOf s.ir = 5 ∧ Config.clrWr s.tick = true := by
    rw [Bool.and_eq_true, linesOf, ramWr_eq_true_iff, and_assoc]
  have hmem : (clearEdge s).mem =
      storeCommit ((linesOf (opcodeOf s.ir) s).ramWr && Config.clrWr s.tick) (opcodeOf s.ir) (operandOf s.ir) s := rfl
  rw [hmem, storeCommit_eq, if_congr hcommit rfl rfl]
  split
  next h =>
    obtain ⟨hstage, hop, -⟩ := h
    rw [addressOf_eq_ite, if_pos ⟨by simp [hstage], by simp [hop]⟩]
  next => rfl

/-- Settles O44: the fields of the clear step. -/
theorem clearStepEffect : Obligations.ClearStepEffect := by
  intro s t hclr hstep
  rw [eq_clearEdge_of_step hclr hstep]
  exact ⟨rfl, rfl, rfl, rfl, rfl, clearEdge_mem_eq_ite s⟩

/-- Settles O45: the step after `reset()` is the clear step. -/
theorem resetProperty : Obligations.ResetProperty :=
  fun s => ⟨_, step_clear (driverReset_clr s), clearEdge_pc _, clearEdge_stage _⟩

/-- Settles O46: after the clear step no clear is pending, so the next step is a fetch at 0x00. -/
theorem entryPoint : Obligations.EntryPoint := by
  intro s t hclr hstep
  rw [eq_clearEdge_of_step hclr hstep]
  exact ⟨rfl, rfl, ⟨rfl, rfl, rfl⟩, _, step_stage1 rfl rfl, rfl⟩

/-- Settles O47: the write that may commit goes to the word the pending store addresses, with ACC in its low byte. -/
theorem clearLeavesMemory : Obligations.ClearLeavesMemory := by
  intro s t hwf hclr hstep a
  rw [eq_clearEdge_of_step hclr hstep, clearEdge_mem_eq_ite]
  split
  next hcommit =>
    obtain ⟨hstage, hop, -⟩ := hcommit
    refine ⟨fun ⟨_, _, ha⟩ => .inr ?_,
      fun hnot => readWord_writeWord_other hwf (fun ha => hnot ⟨hstage, hop, ha.symm⟩) _⟩
    rw [ha, readWord_writeWord_same hwf]
    exact loByte_append _ _
  next => exact ⟨fun _ => .inl rfl, fun _ => rfl⟩

/-- Settles O48: the reset state has an empty memory, whose cells all read as unlisted. -/
theorem resetState : Obligations.ResetState := by
  have unlisted_word : Memory.unlisted ++ Memory.unlisted = (0x0000 : Word) := by decide
  exact ⟨reset_stage, reset_pc, fun _ => unlisted_word⟩

end Sys2Proof.Proofs
end

section
/-! The memory's canonical form: every step keeps it, and it holds at reset and of every booted image; and what a booted memory reads
as (10_state.md R31; 20_memory.md R42; 70_reset_and_hazards.md R195). -/

namespace Sys2Proof.Proofs

open Sys2Proof.Machine Sys2Proof.Safety Sys2Proof.Laws

/-- A step leaves memory alone or writes one word, the clear step and the edge alike (20_memory.md R46, R49). -/
theorem mem_of_step {s t : State} (h : step s = .next t) : t.mem = s.mem ∨ ∃ a w, t.mem = s.mem.writeWord a w := by
  obtain ⟨-, rfl⟩ | ⟨-, rfl⟩ := step_cases h
  · rw [clearEdge_mem_eq_ite]
    split
    · exact .inr ⟨_, _, rfl⟩
    · exact .inl rfl
  · rw [edge_mem_eq_ite]
    split
    · exact .inr ⟨_, _, rfl⟩
    · exact .inl rfl

/-- Settles O51: writing a word keeps the canonical form. -/
theorem stepKeepsMemoryCanonical : Obligations.StepKeepsMemoryCanonical := by
  intro s t hwf hstep
  unfold MemCanonical at *
  obtain hmem | ⟨a, w, hmem⟩ := mem_of_step hstep
  · rwa [hmem]
  · rw [hmem]
    exact wf_writeWord hwf a w

/-- Settles O52: the memory at reset lists nothing. -/
theorem resetMemoryCanonical : Obligations.ResetMemoryCanonical := by
  unfold Obligations.ResetMemoryCanonical MemCanonical
  rw [reset_mem]
  rfl

/-! ### Booted images -/

/-- The two cells of a listed word, in a memory made from an image that fits the array. -/
theorem readByte_ofWordsFrom {ws : List Word} {a i : Nat} {w : Word} (hfit : a + ws.length ≤ 256) (hw : ws[i]? = some w) :
    (Memory.ofWordsFrom a ws).readByte (2 * (a + i)) = loByte w ∧
      (Memory.ofWordsFrom a ws).readByte (2 * (a + i) + 1) = hiByte w := by
  induction ws generalizing a i with
  | nil => simp at hw
  | cons v ws ih =>
    rw [List.length_cons] at hfit
    have hrest : (Memory.ofWordsFrom (a + 1) ws).canonicalFrom (2 * a + 1 + 1) = true :=
      canonicalFrom_ofWordsFrom ws (a + 1) (by omega)
    have hhigh := canonicalFrom_consCell (v := hiByte v) le_rfl (by unfold Memory.cells; omega) hrest
    unfold Memory.ofWordsFrom
    cases i with
    | zero =>
      obtain rfl : v = w := by simpa using hw
      simp [readByte_consCell hhigh, readByte_consCell hrest]
    | succ i =>
      rw [List.getElem?_cons_succ] at hw
      obtain ⟨hlo, hhi⟩ := ih (a := a + 1) (by omega) hw
      have shift : a + (i + 1) = a + 1 + i := by omega
      simp only [readByte_consCell hhigh, readByte_consCell hrest, shift, hlo, hhi]
      exact ⟨by rw [if_neg (by omega), if_neg (by omega)], by rw [if_neg (by omega), if_neg (by omega)]⟩

/-- A memory made from a whole image reads as the image (70_reset_and_hazards.md R195). -/
theorem readWord_ofWordsFrom_zero {ws : List Word} (hfit : ws.length ≤ 256) {a : Addr} {w : Word}
    (hw : ws[a.toNat]? = some w) : (Memory.ofWordsFrom 0 ws).readWord a = w := by
  obtain ⟨hlo, hhi⟩ := readByte_ofWordsFrom (a := 0) (by omega) hw
  rw [Nat.zero_add] at hlo hhi
  rw [Memory.readWord, Memory.loCell, Memory.hiCell, hlo, hhi, hi_append_lo]

/-- Settles O49: an image of another size fails the check. -/
theorem bootRefusesOtherSizes : Obligations.BootRefusesOtherSizes := by
  intro image hlen
  have hcheck : ¬WellFormed.image image = true := by simpa [WellFormed.image] using hlen
  exact if_neg hcheck

/-- Settles O50: the booted memory is the image's, canonical because the image fits the array. -/
theorem bootHoldsImage : Obligations.BootHoldsImage := by
  intro image hlen
  have hcheck : WellFormed.image image = true := by simpa [WellFormed.image] using hlen
  refine ⟨_, if_pos hcheck, rfl, rfl, rfl, canonicalFrom_ofWordsFrom image 0 (by omega), fun a => ?_⟩
  have ha : a.toNat < image.length := hlen ▸ a.isLt
  have hword := List.getElem?_eq_getElem ha
  exact hword.trans (congrArg some (readWord_ofWordsFrom_zero hlen.le hword).symm)

end Sys2Proof.Proofs
end

section
/-! Noninterference of bits [11:8]: states that differ at most in those bits of IR and of memory words take steps that keep them so
(30_encoding.md R63). -/

namespace Sys2Proof.Proofs

open Sys2Proof.Machine Sys2Proof.Safety Sys2Proof.Laws

theorem sameButUnused_refl (w : Word) : SameButUnused w w := ⟨rfl, rfl⟩

/-- Two memories whose words differ at most in bits [11:8]. -/
def WordsSameButUnused (m n : Memory) : Prop := ∀ a : Addr, SameButUnused (m.readWord a) (n.readWord a)

/-- The read byte holds no unused bit (20_memory.md R45). -/
theorem readLow_eq_of_wordsSame {m n : Memory} (h : WordsSameButUnused m n) (a : Addr) : m.readLow a = n.readLow a := by
  rw [← loByte_readWord m, ← loByte_readWord n]
  exact (h a).2

theorem wordsSame_writeWord {m n : Memory} (hm : m.wf = true) (hn : n.wf = true) (h : WordsSameButUnused m n) (a : Addr)
    (w : Word) : WordsSameButUnused (m.writeWord a w) (n.writeWord a w) := by
  intro b
  rw [writeChangesOneWord m a b w hm, writeChangesOneWord n a b w hn]
  split
  · exact sameButUnused_refl w
  · exact h b

section
variable {s t : State} (hs : MemCanonical s) (ht : MemCanonical t) (h : StatesSameButUnused s t)

include hs ht h in
theorem clearEdge_sameButUnused : StatesSameButUnused (clearEdge s) (clearEdge t) := by
  obtain ⟨⟨hop, himm⟩, hacc, -, hstage, -, htick, hmem⟩ := h
  refine ⟨?_, congrArg Config.accClr htick, rfl, rfl, rfl, congrArg (· + 1) htick, ?_⟩
  · rw [clearEdge_ir, clearEdge_ir, htick]
    exact sameButUnused_refl _
  · rw [clearEdge_mem_eq_ite, clearEdge_mem_eq_ite, dataOut, dataOut, hop, himm, hacc, hstage, htick]
    split
    · exact wordsSame_writeWord hs ht hmem _ _
    · exact hmem

include hs ht h in
theorem edge_sameButUnused (op : BitVec 4) (imm : Byte) : StatesSameButUnused (edge op imm s) (edge op imm t) := by
  obtain ⟨hir, hacc, hpc, hstage, hclr, htick, hmem⟩ := h
  have hlines : linesOf op s = linesOf op t := by rw [linesOf, linesOf, hstage, hacc]
  have haddr : addressOf op imm s = addressOf op imm t := by rw [addressOf, addressOf, hlines, hpc]
  have halu : aluOut op imm s = aluOut op imm t := by
    rw [aluOut, aluOut, readDataByte, readDataByte, haddr, hlines, hacc, readLow_eq_of_wordsSame hmem]
  refine ⟨?_, ?_, ?_, congrArg Stage.next hstage, hclr, congrArg (· + 1) htick, ?_⟩
  · rw [edge_ir_eq_ite, edge_ir_eq_ite, hstage, hpc]
    split
    · exact hmem _
    · exact hir
  · rw [edge_acc_eq_ite, edge_acc_eq_ite, hstage, halu, hacc]
  · show pcNext false _ _ imm s.pc = pcNext false _ _ imm t.pc
    rw [hlines, hpc]
  · rw [edge_mem_eq_ite, edge_mem_eq_ite, dataOut, dataOut, hstage, htick, hacc]
    split
    · exact wordsSame_writeWord hs ht hmem _ _
    · exact hmem

end

/-- Settles O54: both states clear or both run the edge, for the same opcode and operand. -/
theorem unusedBitsHaveNoEffect : Obligations.UnusedBitsHaveNoEffect := by
  intro s t hs ht h
  have ⟨⟨hop, himm⟩, _, _, _, hclr, _, _⟩ := h
  cases hc : s.clr with
  | true => exact ⟨_, _, step_clear hc, step_clear (hclr ▸ hc), clearEdge_sameButUnused hs ht h⟩
  | false =>
    refine ⟨_, _, step_edge hc, step_edge (hclr ▸ hc), ?_⟩
    rw [← hop, ← himm]
    exact edge_sameButUnused hs ht h _ _

end Sys2Proof.Proofs
end

section
/-! The loader: a well-formed listing is looked up as it is listed, and so is the image made from it (30_encoding.md R74; D26). -/

namespace Sys2Proof.Proofs

open Sys2Proof.Machine

theorem listing_cons_iff (e : Nat × Word) (es : List (Nat × Word)) :
    WellFormed.listing (e :: es) = true ↔ e.1 < 256 ∧ (∀ f ∈ es, f.1 ≠ e.1) ∧ WellFormed.listing es = true := by
  simp [WellFormed.listing, WellFormed.byteValue, and_assoc]

theorem address_lt_of_mem_listing {es : List (Nat × Word)} (h : WellFormed.listing es = true) {a : Nat} {w : Word}
    (hmem : (a, w) ∈ es) : a < 256 := by
  induction es with
  | nil => simp at hmem
  | cons e es ih =>
    obtain ⟨hlt, -, hrest⟩ := (listing_cons_iff e es).mp h
    obtain rfl | hmem := List.mem_cons.mp hmem
    · exact hlt
    · exact ih hrest hmem

/-- No address is listed twice, so the first entry found for it is its entry. -/
theorem lookup_eq_some_of_mem_listing {es : List (Nat × Word)} (h : WellFormed.listing es = true) {a : Nat} {w : Word}
    (hmem : (a, w) ∈ es) : es.lookup a = some w := by
  induction es with
  | nil => simp at hmem
  | cons e es ih =>
    obtain ⟨-, hdistinct, hrest⟩ := (listing_cons_iff e es).mp h
    obtain rfl | hmem := List.mem_cons.mp hmem
    · exact List.lookup_cons_self
    · have hne : (a == e.1) = false := beq_eq_false_iff_ne.mpr (hdistinct _ hmem)
      rw [List.lookup_cons, hne]
      exact ih hrest hmem

theorem lookup_eq_none_of_unlisted {es : List (Nat × Word)} {a : Nat} (h : ∀ w, (a, w) ∉ es) : es.lookup a = none := by
  rw [List.lookup_eq_none_iff]
  rintro ⟨b, w⟩ hmem
  have hne : a ≠ b := by
    rintro rfl
    exact h w hmem
  exact bne_iff_ne.mpr hne

theorem length_imageOf (es : List (Nat × Word)) : (imageOf es).length = 256 := by
  rw [imageOf, List.length_map, List.length_range]

theorem getElem?_imageOf (es : List (Nat × Word)) {a : Nat} (ha : a < 256) :
    (imageOf es)[a]? = some ((es.lookup a).getD 0x0000) := by
  rw [imageOf, List.getElem?_map, List.getElem?_range ha]
  rfl

theorem loadImage_of_loadLines {ls : List (List Char)} {es : List (Nat × Word)} (h : loadLines ls = .ok es) :
    loadImage ls = if WellFormed.listing es then .ok (imageOf es) else .error .duplicateAddress := by
  rw [loadImage, h]

/-- Settles O5: the image holds at each address what the lookup in the listing gives. -/
theorem loadedImageHoldsListing : Obligations.LoadedImageHoldsListing := by
  intro ls es hlines
  rw [loadImage_of_loadLines hlines]
  refine ⟨fun hbad => by simp [hbad], fun hgood =>
    ⟨_, if_pos hgood, length_imageOf es, fun a w hmem => ?_, fun a ha hnot => ?_⟩⟩
  · rw [getElem?_imageOf es (address_lt_of_mem_listing hgood hmem), lookup_eq_some_of_mem_listing hgood hmem]
    rfl
  · rw [getElem?_imageOf es ha, lookup_eq_none_of_unlisted hnot]
    rfl

end Sys2Proof.Proofs
end

section
/-! Runs of clear-free steps: the stage by the count of steps, and instructions one after another (10_state.md R35; 20_memory.md R55,
R58; 43_datapath.md R127). -/

namespace Sys2Proof.Proofs

open Sys2Proof.Machine Sys2Proof.Safety Sys2Proof.Laws

/-- A run goes on from where a shorter one ended. -/
theorem steps_add {m : Nat} {s t : State} (h : steps m s = .next t) (n : Nat) : steps (m + n) s = steps n t := by
  induction m generalizing s with
  | zero => rw [Nat.zero_add, Host.Outcome.next.inj h]
  | succ m ih =>
    obtain ⟨u, hu⟩ := everyStepCompletes s
    rw [steps_succ hu] at h
    rw [Nat.succ_add, steps_succ hu, ih h]

/-! ### The stage -/

/-- Clear-free steps complete, stay clear-free, and move the stage round its cycle (41_sequencer.md R90). -/
theorem steps_clear_free (n : Nat) {s : State} (hclr : s.clr = false) :
    ∃ t, steps n s = .next t ∧ t.stage = Stage.next^[n] s.stage ∧ t.clr = false := by
  induction n generalizing s with
  | zero => exact ⟨s, rfl, rfl, hclr⟩
  | succ n ih =>
    obtain ⟨t, hrun, hstage, ht⟩ := ih ((edge_clr _ _ s).trans hclr)
    refine ⟨t, (steps_succ (step_edge hclr) n).trans hrun, ?_, ht⟩
    rw [hstage, Function.iterate_succ_apply, edge_stage]

/-- The cycle of the stages has length three (41_sequencer.md R90). -/
theorem iterate_stage_next (n : Nat) : Stage.next^[n] .stage1 = stageAfter n := by
  have hperiod : Function.IsPeriodicPt Stage.next 3 .stage1 := rfl
  have hmod : stageAfter n = stageAfter (n % 3) := by rw [stageAfter, stageAfter, Nat.mod_mod]
  have hlt : n % 3 < 3 := Nat.mod_lt _ (by decide)
  rw [← hperiod.iterate_mod_apply, hmod]
  generalize n % 3 = r at hlt
  interval_cases r
  · rfl
  · rfl
  · rfl

/-- Settles O53: the stage goes round its cycle of three. -/
theorem stageCountsStepsModThree : Obligations.StageCountsStepsModThree := by
  intro n s hs hclr
  obtain ⟨t, hrun, hstage, ht⟩ := steps_clear_free n hclr
  exact ⟨t, hrun, by rw [hstage, hs, iterate_stage_next], ht⟩

/-! ### The sentinel -/

/-- The last two steps of an undefined opcode's cycle (47_instr_undefined.md R158). -/
theorem steps_two_of_isUndefined {s : State} (hi : IsUndefined (decode s.ir)) (hs : s.stage = .stage2)
    (hclr : s.clr = false) : steps 2 s = .next { s with pc := s.pc + 1, stage := .stage1, tick := s.tick + 2 } := by
  obtain ⟨-, two, -⟩ := undefinedOpcodesComplete (decode s.ir) s hi
  obtain ⟨-, -, three⟩ := undefinedOpcodesComplete (decode s.ir) (stage2Done s (s.pc + 1)) hi
  have step1 := (step_eq_exec_decode_ir hclr).trans (two hs)
  have step2 := (step_eq_exec_decode_ir (s := stage2Done s (s.pc + 1)) hclr).trans (three rfl)
  exact (steps_succ step1 1).trans (steps_succ step2 0)

/-- Settles O57: the sentinel is a word of opcode 15; after its cycle comes a fetch. -/
theorem sentinelDoesNotHalt : Obligations.SentinelDoesNotHalt := by
  intro s hs hclr hir
  have hi : IsUndefined (decode s.ir) := by
    have hdecode : decode 0xFFFF = .undef15 0xFF := by decide
    rw [hir, hdecode]
    trivial
  have two := steps_two_of_isUndefined hi hs hclr
  have fetch := step_stage1 (s := { s with pc := s.pc + 1, stage := .stage1, tick := s.tick + 2 }) rfl hclr
  exact ⟨two, (steps_add (m := 2) two 1).trans (steps_succ fetch 0)⟩

/-! ### Instructions after a store -/

/-- A cycle ends at the fetch of the instruction its PC and memory give (41_sequencer.md R110). -/
theorem atFetch_cycleEnd {i j : Instr} {s : State} (h : AtFetch i s) {acc : Byte} {pc : Addr} {mem : Memory}
    (hj : decode (mem.readWord pc) = j) : AtFetch j (cycleEnd s acc pc mem) :=
  have ⟨_, hclr, _⟩ := h
  ⟨rfl, hclr, hj⟩

/-- The memory after the cycle of `store ea` from `s` (45_instr_memory.md R141). -/
def storedMem (ea : Addr) (s : State) : Memory := s.mem.writeWord ea (Config.storeHi (s.tick + 2) ++ s.acc)

theorem loByte_readWord_storedMem {s : State} (hwf : MemCanonical s) (ea : Addr) :
    loByte ((storedMem ea s).readWord ea) = s.acc := by
  rw [storedMem, readWord_writeWord_same hwf, loByte_append]

theorem readWord_storedMem_of_ne {s : State} (hwf : MemCanonical s) {ea a : Addr} (h : ea ≠ a) :
    (storedMem ea s).readWord a = s.mem.readWord a := readWord_writeWord_other hwf h _

/-- The state after the cycle of `store ea` from `s` (45_instr_memory.md R138). -/
def storedState (ea : Addr) (s : State) : State := cycleEnd s s.acc (s.pc + 1) (storedMem ea s)

theorem steps_three_eq_storedState {ea : Addr} {s : State} (h : AtFetch (.store ea) s) :
    steps 3 s = .next (storedState ea s) := steps_three_of_store h

/-- A store, then an instruction that writes ACC, over six steps (44_instr_immediate.md R128; 45_instr_memory.md R138). -/
theorem steps_six_after_store {ea : Addr} {s : State} {i : Instr} (hwf : MemCanonical s) (h : AtFetch (.store ea) s)
    (hea : ea ≠ s.pc + 1) (hi : decode (s.mem.readWord (s.pc + 1)) = i) (hw : WritesAcc i) :
    steps 6 s = .next (cycleEnd (storedState ea s) (accAfter s.acc (storedMem ea s) i) (s.pc + 2) (storedMem ea s)) := by
  have hfetch : AtFetch i (storedState ea s) := atFetch_cycleEnd h (by rw [readWord_storedMem_of_ne hwf hea, hi])
  have hpc : (storedState ea s).pc + 1 = s.pc + 2 := add_assoc s.pc 1 1
  rw [← hpc, steps_add (m := 3) (steps_three_eq_storedState h) 3]
  exact steps_three_of_writesAcc hfetch hw

/-- Settles O55: the word fetched at PC + 1 is the one just written there. -/
theorem storeSeenByNextFetch : Obligations.StoreSeenByNextFetch := by
  intro s hwf h
  have cycle := steps_three_eq_storedState h
  obtain ⟨-, hclr, -⟩ := h
  refine ⟨⟨_, cycle, rfl⟩, ?_⟩
  have hfetch : steps 4 s = .next (fetchDone (storedState (s.pc + 1) s)) := by
    rw [steps_add (m := 3) cycle 1]
    exact steps_succ (step_stage1 (s := storedState (s.pc + 1) s) rfl hclr) 0
  have hir : (fetchDone (storedState (s.pc + 1) s)).ir = Config.storeHi (s.tick + 2) ++ s.acc :=
    readWord_writeWord_same hwf _ _
  exact ⟨_, hfetch, by rw [hir, loByte_append], by rw [hir, hiByte_append]⟩

/-- Settles O56: the low byte of the stored word is the old ACC, which each reader gets back. -/
theorem storeThenLoad : Obligations.StoreThenLoad := by
  intro ea s hwf h hea
  have hread := loByte_readWord_storedMem hwf ea
  refine ⟨fun hi => ⟨_, steps_six_after_store hwf h hea hi trivial, ?_, rfl, rfl⟩,
    fun hi => ⟨_, steps_six_after_store hwf h hea hi trivial, ?_, rfl, rfl⟩, fun imm hmove hload hea2 => ?_⟩
  · show s.acc - loByte ((storedMem ea s).readWord ea) = 0
    rw [hread, sub_self]
  · show (s.acc + loByte ((storedMem ea s).readWord ea)).toNat = 2 * s.acc.toNat % 256
    rw [hread, BitVec.toNat_add, two_mul]
  · have six := steps_six_after_store hwf h hea hmove trivial
    have hstored : AtFetch (.load ea) (cycleEnd s imm (s.pc + 2) (storedMem ea s)) :=
      atFetch_cycleEnd h (by rw [readWord_storedMem_of_ne hwf hea2, hload])
    have hfetch : AtFetch (.load ea) (cycleEnd (storedState ea s) imm (s.pc + 2) (storedMem ea s)) := hstored
    have nine := (steps_add (m := 6) six 3).trans (steps_three_of_writesAcc hfetch trivial)
    exact ⟨⟨_, six, rfl⟩, _, nine, hread, add_assoc s.pc 2 1, rfl⟩

end Sys2Proof.Proofs
end

section
/-! Runs to the sentinel: where one ends, and a loop in which none does; and the cautious variant of the step (43_datapath.md R126,
R127; 93_implementation_defined.md entry 1). -/

namespace Sys2Proof.Proofs

open Sys2Proof.Machine Sys2Proof.Safety Sys2Proof.Laws

theorem fetchedSentinel_eq_true_iff (s t : State) :
    Driver.fetchedSentinel s t = true ↔ s.stage = .stage1 ∧ s.clr = false ∧ t.ir = Driver.sentinel := by
  simp [Driver.fetchedSentinel, and_assoc]

/-- One step of a run to the sentinel (43_datapath.md R126). -/
theorem runToSentinel_succ {s t : State} (h : step s = .next t) (fuel : Nat) :
    Driver.runToSentinel (fuel + 1) s =
      if Driver.fetchedSentinel s t then some (1, t)
      else (Driver.runToSentinel fuel t).map fun r => (r.1 + 1, r.2) := by
  rw [Driver.runToSentinel, h]

/-- A run that ends is that many steps, the last of them a fetch of the sentinel (43_datapath.md R126). -/
theorem runToSentinel_eq_some {fuel k : Nat} {s t : State} (h : Driver.runToSentinel fuel s = some (k, t)) :
    steps k s = .next t ∧ ∃ u, step u = .next t ∧ Driver.fetchedSentinel u t = true := by
  induction fuel generalizing k s with
  | zero => simp [Driver.runToSentinel] at h
  | succ fuel ih =>
    obtain ⟨v, hv⟩ := everyStepCompletes s
    rw [runToSentinel_succ hv] at h
    split at h
    next hlast =>
      obtain ⟨rfl, rfl⟩ := Prod.mk.inj (Option.some.inj h)
      exact ⟨steps_succ hv 0, s, hv, hlast⟩
    next =>
      obtain ⟨⟨n, w⟩, hrest, hr⟩ := Option.map_eq_some_iff.mp h
      obtain ⟨rfl, rfl⟩ := Prod.mk.inj hr
      obtain ⟨hrun, hend⟩ := ih hrest
      exact ⟨(steps_succ hv n).trans hrun, hend⟩

theorem eq_three_mul_add_one_of_stageAfter {k : Nat} (h : stageAfter k = .stage2) : ∃ n, k = 3 * n + 1 := by
  refine ⟨k / 3, ?_⟩
  have hlt : k % 3 < 3 := Nat.mod_lt _ (by decide)
  have hmod : k % 3 = 1 := by
    unfold stageAfter at h
    generalize k % 3 = r at h hlt ⊢
    interval_cases r
    · exact absurd h (by decide)
    · rfl
    · exact absurd h (by decide)
  omega

/-- Settles O58: the last step is a fetch, so it leaves STAGE2, and the stage counts the steps. -/
theorem runEndsAfterWholeCycles : Obligations.RunEndsAfterWholeCycles := by
  intro fuel k s t hs hclr hend
  obtain ⟨hrun, u, hu, hfetched⟩ := runToSentinel_eq_some hend
  obtain ⟨hstage, huclr, hir⟩ := (fetchedSentinel_eq_true_iff u t).mp hfetched
  obtain rfl : t = fetchDone u := Host.Outcome.next.inj (hu.symm.trans (step_stage1 hstage huclr))
  obtain ⟨t', hrun', hcount, -⟩ := stageCountsStepsModThree k s hs hclr
  obtain rfl : fetchDone u = t' := Host.Outcome.next.inj (hrun.symm.trans hrun')
  exact ⟨eq_three_mul_add_one_of_stageAfter hcount.symm, rfl, hir, hir⟩

/-! ### A jump to itself -/

/-- The machine runs a `jumpu` to its own address: the word at PC is that jump, and after its fetch so is IR
(43_datapath.md R127). -/
structure SelfJumping (s : State) : Prop where
  clr : s.clr = false
  word : decode (fetchWord s) = .jumpu s.pc
  ir : s.stage ≠ .stage1 → decode s.ir = .jumpu s.pc

theorem selfJumping_of_atFetch {s : State} (h : AtFetch (.jumpu s.pc) s) : SelfJumping s :=
  have ⟨hs, hclr, hword⟩ := h
  ⟨hclr, hword, fun hne => absurd hs hne⟩

/-- Outside STAGE1 the jump changes neither IR nor memory, and loads PC with the value it has. -/
theorem edge_keeps_selfJumping {s : State} (h : SelfJumping s) (hs : s.stage ≠ .stage1) :
    SelfJumping (edge 8 s.pc s) := by
  have hpc : (edge 8 s.pc s).pc = s.pc := (edge_pc_of_pcLoad rfl s.pc).trans (ite_self _)
  have hmem : (edge 8 s.pc s).mem = s.mem := edge_mem_of_ne_store (by decide) _ s
  have hir : (edge 8 s.pc s).ir = s.ir := edge_ir_of_ne_stage1 _ _ hs
  refine ⟨h.clr, ?_, fun _ => ?_⟩
  · rw [fetchWord, hmem, hpc]
    exact h.word
  · rw [hir, hpc]
    exact h.ir hs

/-- Every step keeps the loop, and none fetches the sentinel: the sentinel does not decode to a jump. -/
theorem step_of_selfJumping {s : State} (h : SelfJumping s) :
    ∃ t, step s = .next t ∧ SelfJumping t ∧ Driver.fetchedSentinel s t = false := by
  by_cases hs : s.stage = .stage1
  · refine ⟨_, step_stage1 hs h.clr, ⟨h.clr, h.word, fun _ => h.word⟩, Bool.eq_false_iff.mpr fun hfetched => ?_⟩
    obtain ⟨-, -, hsentinel⟩ := (fetchedSentinel_eq_true_iff _ _).mp hfetched
    have hir : decode (fetchDone s).ir = .jumpu s.pc := h.word
    have hdecode : decode Driver.sentinel = .undef15 0xFF := by decide
    rw [hsentinel, hdecode] at hir
    exact Instr.noConfusion hir
  · refine ⟨_, ?_, edge_keeps_selfJumping h hs,
      Bool.eq_false_iff.mpr fun hfetched => hs ((fetchedSentinel_eq_true_iff _ _).mp hfetched).1⟩
    rw [step_eq_exec_decode_ir h.clr, h.ir hs, exec_eq_edge]
    rfl

theorem runToSentinel_of_selfJumping (fuel : Nat) {s : State} (h : SelfJumping s) : Driver.runToSentinel fuel s = none := by
  induction fuel generalizing s with
  | zero => rfl
  | succ fuel ih =>
    obtain ⟨t, hstep, ht, hnot⟩ := step_of_selfJumping h
    rw [runToSentinel_succ hstep, hnot, ih ht]
    rfl

/-- Settles O59: the loop is an invariant that no step of a run leaves. -/
theorem selfJumpNeverEndsRun : Obligations.SelfJumpNeverEndsRun :=
  fun fuel _ h => runToSentinel_of_selfJumping fuel (selfJumping_of_atFetch h)

/-! ### The cautious variant -/

theorem refusesFetch_refuse_eq_true_iff (s : State) :
    refusesFetch .refuse s = true ↔ s.stage = .stage1 ∧ 11 ≤ (opcodeOf (fetchWord s)).toNat := by
  simp [refusesFetch, undefinedOpcode]

/-- With the clear high both variants clear; with it low they differ by the check at fetch alone. -/
theorem clockStep_refuse (s : State) :
    clockStep .refuse s = if s.clr = false ∧ refusesFetch .refuse s = true
      then .refused (.undefinedOpcode (opcodeOf (fetchWord s))) else step s := by
  cases hclr : s.clr with
  | true => simp [clockStep, hclr, step_clear hclr]
  | false => simp [clockStep, hclr, step_eq_exec_decode_ir hclr]

/-- Settles O60: the check at fetch is the statement's condition. -/
theorem refuseVariant : Obligations.RefuseVariant := by
  intro s
  rw [clockStep_refuse, ← refusesFetch_refuse_eq_true_iff]
  exact ⟨fun h => if_pos h, fun h => if_neg h⟩

end Sys2Proof.Proofs
end
